-- ==== Sys2Proof/Word.lean ====
section
/-! DEFINITION. The word and byte types of the yavm LC-3 core (spec/00_scope.md R6, R9). -/

namespace Sys2Proof

/-- The width of a register, a memory cell, an address and an instruction: 16 bits (R6). -/
abbrev Word := BitVec 16

/-- A byte: it exists only in the host's image file (R251) and in PUTSP's packed characters (R186). -/
abbrev Byte := BitVec 8

end Sys2Proof
end

