-- ==== Sys2Proof/Syntax.lean ====
section
/-! DEFINITION. The instructions of the core as syntax: the eight register names, the sixteen opcodes, the
nineteen forms (spec/30_encoding.md R99, R100) and the ONE inductive of instructions, one constructor per
row of spec/opcode_table.json. Fields have exactly the width of the encoding's field (R84), so that no
ill-formed instruction can be written; the bits R102 calls unused are no part of an instruction. -/

namespace Sys2Proof

/-- The eight general registers (R20). -/
inductive Reg where
  | r0 | r1 | r2 | r3 | r4 | r5 | r6 | r7
  deriving DecidableEq, Repr

/-- The sixteen opcodes (R99). `jsr` is the one opcode of JSR and JSRR. -/
inductive Opcode where
  | br | add | ld | st | jsr | and | ldr | str | rti | not | ldi | sti | jmp | res | lea | trap
  deriving DecidableEq, Repr

/-- The nineteen instruction forms (R100), in the order of the table there. -/
inductive Form where
  | br | addReg | addImm | ld | st | jsrr | jsr | andReg | andImm | ldr | str | rti | not | ldi | sti
  | jmp | res | lea | trap
  deriving DecidableEq, Repr

/-- The nineteen forms as a list. -/
def Form.all : List Form :=
  [.br, .addReg, .addImm, .ld, .st, .jsrr, .jsr, .andReg, .andImm, .ldr, .str, .rti, .not, .ldi, .sti,
   .jmp, .res, .lea, .trap]

/-- An instruction: one constructor per row of spec/opcode_table.json, in the table's order. -/
inductive Instr where
  /-- BR (R150): the condition bits n, z, p and the 9-bit offset. -/
  | br (n z p : Bool) (pcOffset9 : BitVec 9)
  /-- ADD, register form (R140). -/
  | addReg (dr sr1 sr2 : Reg)
  /-- ADD, immediate form (R141). -/
  | addImm (dr sr1 : Reg) (imm5 : BitVec 5)
  /-- LD (R160). -/
  | ld (dr : Reg) (pcOffset9 : BitVec 9)
  /-- ST (R170). -/
  | st (sr : Reg) (pcOffset9 : BitVec 9)
  /-- JSRR (R153). -/
  | jsrr (baseR : Reg)
  /-- JSR (R152). -/
  | jsr (pcOffset11 : BitVec 11)
  /-- AND, register form (R142). -/
  | andReg (dr sr1 sr2 : Reg)
  /-- AND, immediate form (R143). -/
  | andImm (dr sr1 : Reg) (imm5 : BitVec 5)
  /-- LDR (R162). -/
  | ldr (dr baseR : Reg) (offset6 : BitVec 6)
  /-- STR (R172). -/
  | str (sr baseR : Reg) (offset6 : BitVec 6)
  /-- RTI (R200): illegal always. -/
  | rti
  /-- NOT (R144). -/
  | not (dr sr1 : Reg)
  /-- LDI (R161). -/
  | ldi (dr : Reg) (pcOffset9 : BitVec 9)
  /-- STI (R171). -/
  | sti (sr : Reg) (pcOffset9 : BitVec 9)
  /-- JMP (R151); RET is JMP R7 (R106). -/
  | jmp (baseR : Reg)
  /-- RES (R201): the reserved opcode, illegal always. -/
  | res
  /-- LEA (R163). -/
  | lea (dr : Reg) (pcOffset9 : BitVec 9)
  /-- TRAP (R180), with any of the 256 vectors. -/
  | trap (trapVector : BitVec 8)
  deriving DecidableEq, Repr

/-- The form of an instruction (R100). -/
def Instr.form : Instr → Form
  | .br _ _ _ _ => .br
  | .addReg _ _ _ => .addReg
  | .addImm _ _ _ => .addImm
  | .ld _ _ => .ld
  | .st _ _ => .st
  | .jsrr _ => .jsrr
  | .jsr _ => .jsr
  | .andReg _ _ _ => .andReg
  | .andImm _ _ _ => .andImm
  | .ldr _ _ _ => .ldr
  | .str _ _ _ => .str
  | .rti => .rti
  | .not _ _ => .not
  | .ldi _ _ => .ldi
  | .sti _ _ => .sti
  | .jmp _ => .jmp
  | .res => .res
  | .lea _ _ => .lea
  | .trap _ => .trap

end Sys2Proof
end

