-- ==== Sys2Proof/WellFormed.lean ====
section
/-! DEFINITION. Well-formedness. An instruction needs no check of its own: its fields have exactly the width
of the encoding's fields (Syntax.lean), so every term of `Instr` is an instruction of the machine. Two
things OUTSIDE the syntax can be ill formed: a 16-bit word whose unused bits are not the customary ones
(spec/30_encoding.md R102: the core ignores them, so such a word still runs; an assembler never emits it),
and an image file too short to hold its origin word (spec/70_reset_and_hazards.md R254: LoadError). -/

namespace Sys2Proof

/-- One row of the match and mask table of R100, with the unused bits R102 lists for the form and the
pattern an assembler emits in them (0, but 1s for bits 5:0 of NOT). -/
structure FormRow where
  /-- The fixed bits' values. -/
  pattern : Word
  /-- Which bits are fixed. -/
  mask : Word
  /-- Which bits no field uses (R102). -/
  unused : Word
  /-- The customary value of the unused bits (R102, PRESUMED: notes/assumptions/19.md). -/
  customary : Word
  deriving DecidableEq, Repr

/-- The table of R100, with R102's unused bits. -/
def Form.row : Form → FormRow
  | .br     => ⟨0x0000, 0xF000, 0x0000, 0x0000⟩
  | .addReg => ⟨0x1000, 0xF020, 0x0018, 0x0000⟩
  | .addImm => ⟨0x1020, 0xF020, 0x0000, 0x0000⟩
  | .ld     => ⟨0x2000, 0xF000, 0x0000, 0x0000⟩
  | .st     => ⟨0x3000, 0xF000, 0x0000, 0x0000⟩
  | .jsrr   => ⟨0x4000, 0xF800, 0x063F, 0x0000⟩
  | .jsr    => ⟨0x4800, 0xF800, 0x0000, 0x0000⟩
  | .andReg => ⟨0x5000, 0xF020, 0x0018, 0x0000⟩
  | .andImm => ⟨0x5020, 0xF020, 0x0000, 0x0000⟩
  | .ldr    => ⟨0x6000, 0xF000, 0x0000, 0x0000⟩
  | .str    => ⟨0x7000, 0xF000, 0x0000, 0x0000⟩
  | .rti    => ⟨0x8000, 0xF000, 0x0FFF, 0x0000⟩
  | .not    => ⟨0x9000, 0xF000, 0x003F, 0x003F⟩
  | .ldi    => ⟨0xA000, 0xF000, 0x0000, 0x0000⟩
  | .sti    => ⟨0xB000, 0xF000, 0x0000, 0x0000⟩
  | .jmp    => ⟨0xC000, 0xF000, 0x0E3F, 0x0000⟩
  | .res    => ⟨0xD000, 0xF000, 0x0FFF, 0x0000⟩
  | .lea    => ⟨0xE000, 0xF000, 0x0000, 0x0000⟩
  | .trap   => ⟨0xF000, 0xF000, 0x0F00, 0x0000⟩

/-- The word `w` is of the form `f`: `w & mask = match` (R100). -/
def Form.holds (f : Form) (w : Word) : Bool :=
  w &&& f.row.mask == f.row.pattern

/-- The word's unused bits, for the form it is of, are the customary ones (R102). -/
def wordWellFormed (w : Word) : Bool :=
  Form.all.all fun f => !f.holds w || w &&& f.row.unused == f.row.customary

/-- The image file holds an origin word (R250, R254). -/
def imageWellFormed (bytes : List Byte) : Bool :=
  2 ≤ bytes.length

end Sys2Proof
end

