-- ==== Sys2Proof/Decode.lean ====
section
/-! DEFINITION. The decoder (spec/30_encoding.md R82, R84, R99, R100) and the encoder. Decoding is total: every
16-bit word is exactly one instruction (R100); RTI, RES and the undefined trap vectors are decoded, and it
is their execution that stops the machine (R101). Bytes occur only outside the core, in the image's
big-endian words (R251): `decodeBytes` reads one instruction from such bytes and rejects by name a list
that holds no whole word. -/

namespace Sys2Proof

/-- A 3-bit register field as a register (R21, R96). -/
def Reg.ofBits (b : BitVec 3) : Reg :=
  match b.toNat with
  | 0 => .r0
  | 1 => .r1
  | 2 => .r2
  | 3 => .r3
  | 4 => .r4
  | 5 => .r5
  | 6 => .r6
  | _ => .r7

/-- A register's 3-bit number (R20). -/
def Reg.bits : Reg → BitVec 3
  | .r0 => 0
  | .r1 => 1
  | .r2 => 2
  | .r3 => 3
  | .r4 => 4
  | .r5 => 5
  | .r6 => 6
  | .r7 => 7

/-- The opcode numbers of R99. UNVERIFIED but for ADD and AND: the spec's decision D1
(notes/assumptions/1.md). -/
def Opcode.number : Opcode → BitVec 4
  | .br => 0
  | .add => 1
  | .ld => 2
  | .st => 3
  | .jsr => 4
  | .and => 5
  | .ldr => 6
  | .str => 7
  | .rti => 8
  | .not => 9
  | .ldi => 10
  | .sti => 11
  | .jmp => 12
  | .res => 13
  | .lea => 14
  | .trap => 15

/-- The opcode a 4-bit number selects (R81, R99). All sixteen numbers are assigned, so the last arm is
15 alone and the source's default branch is never reached (R100). -/
def Opcode.ofNumber (b : BitVec 4) : Opcode :=
  match b.toNat with
  | 0 => .br
  | 1 => .add
  | 2 => .ld
  | 3 => .st
  | 4 => .jsr
  | 5 => .and
  | 6 => .ldr
  | 7 => .str
  | 8 => .rti
  | 9 => .not
  | 10 => .ldi
  | 11 => .sti
  | 12 => .jmp
  | 13 => .res
  | 14 => .lea
  | _ => .trap

/-! The decoded record of R84: every field is a fixed slice of the word, for every word. The positions of
`sr1`, `immFlag`, `imm5` and `sr2` are UNVERIFIED, the spec's decision D2 (notes/assumptions/2.md). -/

/-- `opcode = ir[15:12]` (R84). -/
def Field.opcode (w : Word) : Opcode := Opcode.ofNumber (w.extractLsb' 12 4)

/-- `dr = ir[11:9]` (R84). -/
def Field.dr (w : Word) : Reg := Reg.ofBits (w.extractLsb' 9 3)

/-- `sr = ir[11:9]`, the `dr` field as a store's source (R84). -/
def Field.sr (w : Word) : Reg := Field.dr w

/-- `n = ir[11]` (R84). -/
def Field.n (w : Word) : Bool := w.getLsbD 11

/-- `z = ir[10]` (R84). -/
def Field.z (w : Word) : Bool := w.getLsbD 10

/-- `p = ir[9]` (R84). -/
def Field.p (w : Word) : Bool := w.getLsbD 9

/-- `jsrMode = ir[11]` (R84). -/
def Field.jsrMode (w : Word) : Bool := w.getLsbD 11

/-- `sr1 = ir[8:6]` (R84, R86). -/
def Field.sr1 (w : Word) : Reg := Reg.ofBits (w.extractLsb' 6 3)

/-- `baseR = ir[8:6]` (R84). -/
def Field.baseR (w : Word) : Reg := Reg.ofBits (w.extractLsb' 6 3)

/-- `immFlag = ir[5]` (R84, R86). -/
def Field.immFlag (w : Word) : Bool := w.getLsbD 5

/-- `sr2 = ir[2:0]` (R84, R86). -/
def Field.sr2 (w : Word) : Reg := Reg.ofBits (w.extractLsb' 0 3)

/-- `imm5 = ir[4:0]` (R84, R86). -/
def Field.imm5 (w : Word) : BitVec 5 := w.extractLsb' 0 5

/-- `offset6 = ir[5:0]` (R84). -/
def Field.offset6 (w : Word) : BitVec 6 := w.extractLsb' 0 6

/-- `pcOffset9 = ir[8:0]` (R84). -/
def Field.pcOffset9 (w : Word) : BitVec 9 := w.extractLsb' 0 9

/-- `pcOffset11 = ir[10:0]` (R84). -/
def Field.pcOffset11 (w : Word) : BitVec 11 := w.extractLsb' 0 11

/-- `trapVector = ir[7:0]` (R84). -/
def Field.trapVector (w : Word) : BitVec 8 := w.extractLsb' 0 8

/-- The instruction a word is: the decision procedure of R100. Unused bits take no part (R102,
UNVERIFIED: the spec's decision D3, notes/assumptions/3.md). -/
def decode (w : Word) : Instr :=
  match Field.opcode w with
  | .br => .br (Field.n w) (Field.z w) (Field.p w) (Field.pcOffset9 w)
  | .add =>
    if Field.immFlag w then .addImm (Field.dr w) (Field.sr1 w) (Field.imm5 w)
    else .addReg (Field.dr w) (Field.sr1 w) (Field.sr2 w)
  | .ld => .ld (Field.dr w) (Field.pcOffset9 w)
  | .st => .st (Field.sr w) (Field.pcOffset9 w)
  | .jsr => if Field.jsrMode w then .jsr (Field.pcOffset11 w) else .jsrr (Field.baseR w)
  | .and =>
    if Field.immFlag w then .andImm (Field.dr w) (Field.sr1 w) (Field.imm5 w)
    else .andReg (Field.dr w) (Field.sr1 w) (Field.sr2 w)
  | .ldr => .ldr (Field.dr w) (Field.baseR w) (Field.offset6 w)
  | .str => .str (Field.sr w) (Field.baseR w) (Field.offset6 w)
  | .rti => .rti
  | .not => .not (Field.dr w) (Field.sr1 w)
  | .ldi => .ldi (Field.dr w) (Field.pcOffset9 w)
  | .sti => .sti (Field.sr w) (Field.pcOffset9 w)
  | .jmp => .jmp (Field.baseR w)
  | .res => .res
  | .lea => .lea (Field.dr w) (Field.pcOffset9 w)
  | .trap => .trap (Field.trapVector w)

/-- A big-endian pair of bytes as a word: the first byte is bits 15 to 8 (R251). -/
def wordOfBytes (hi lo : Byte) : Word := hi ++ lo

/-- Why a list of bytes holds no instruction. -/
inductive DecodeError where
  /-- Fewer than two bytes: no whole instruction word (R80). -/
  | truncated
  deriving DecidableEq, Repr

/-- The instruction at the head of a list of big-endian bytes, and the bytes after it. -/
def decodeBytes : List Byte → Except DecodeError (Instr × List Byte)
  | hi :: lo :: rest => .ok (decode (wordOfBytes hi lo), rest)
  | _ => .error .truncated

/-- A field's bits at their place in the word, the lowest at bit `lo`. -/
def fieldAt {n : Nat} (lo : Nat) (b : BitVec n) : Word := b.setWidth 16 <<< lo

/-- The opcode at `ir[15:12]` (R81). -/
def opcodeAt (o : Opcode) : Word := fieldAt 12 o.number

/-- The word of an instruction, written from the format tables R87 to R94, with the customary pattern in the
unused bits (R102, PRESUMED: notes/assumptions/19.md). -/
def encode : Instr → Word
  | .br n z p off =>
    opcodeAt .br ||| fieldAt 11 (BitVec.ofBool n) ||| fieldAt 10 (BitVec.ofBool z) |||
      fieldAt 9 (BitVec.ofBool p) ||| fieldAt 0 off
  | .addReg dr sr1 sr2 => opcodeAt .add ||| fieldAt 9 dr.bits ||| fieldAt 6 sr1.bits ||| fieldAt 0 sr2.bits
  | .addImm dr sr1 imm5 =>
    opcodeAt .add ||| fieldAt 9 dr.bits ||| fieldAt 6 sr1.bits ||| fieldAt 5 1#1 ||| fieldAt 0 imm5
  | .ld dr off => opcodeAt .ld ||| fieldAt 9 dr.bits ||| fieldAt 0 off
  | .st sr off => opcodeAt .st ||| fieldAt 9 sr.bits ||| fieldAt 0 off
  | .jsrr baseR => opcodeAt .jsr ||| fieldAt 6 baseR.bits
  | .jsr off => opcodeAt .jsr ||| fieldAt 11 1#1 ||| fieldAt 0 off
  | .andReg dr sr1 sr2 => opcodeAt .and ||| fieldAt 9 dr.bits ||| fieldAt 6 sr1.bits ||| fieldAt 0 sr2.bits
  | .andImm dr sr1 imm5 =>
    opcodeAt .and ||| fieldAt 9 dr.bits ||| fieldAt 6 sr1.bits ||| fieldAt 5 1#1 ||| fieldAt 0 imm5
  | .ldr dr baseR off => opcodeAt .ldr ||| fieldAt 9 dr.bits ||| fieldAt 6 baseR.bits ||| fieldAt 0 off
  | .str sr baseR off => opcodeAt .str ||| fieldAt 9 sr.bits ||| fieldAt 6 baseR.bits ||| fieldAt 0 off
  | .rti => opcodeAt .rti
  | .not dr sr1 => opcodeAt .not ||| fieldAt 9 dr.bits ||| fieldAt 6 sr1.bits ||| fieldAt 0 63#6
  | .ldi dr off => opcodeAt .ldi ||| fieldAt 9 dr.bits ||| fieldAt 0 off
  | .sti sr off => opcodeAt .sti ||| fieldAt 9 sr.bits ||| fieldAt 0 off
  | .jmp baseR => opcodeAt .jmp ||| fieldAt 6 baseR.bits
  | .res => opcodeAt .res
  | .lea dr off => opcodeAt .lea ||| fieldAt 9 dr.bits ||| fieldAt 0 off
  | .trap v => opcodeAt .trap ||| fieldAt 0 v

/-- The 16-bit word an opcode-table entry of `nbits` bits with value `w` stands for, the bits above
`nbits` being 0. -/
def tableWord (nbits w : Nat) : Word := BitVec.ofNat 16 (w % 2 ^ nbits)

/-- The instruction the decoder reads from an instruction of the opcode table whose bits are `w`: one word,
bit 0 its least significant bit. No word is refused (R100). -/
def decodeTableWord (nbits w : Nat) : Option Instr := some (decode (tableWord nbits w))

end Sys2Proof
end

