-- ==== Sys2Proof/Config.lean ====
section
/-! DEFINITION. What an implementation fixes: the three open parameters of spec/00_scope.md R7 and the
fixed sizes of R6. -/

namespace Sys2Proof

/-- `PC_START`, an open parameter of the spec (R7, R41, decision D5) at the spec's own default.
DESIGN CHOICE, unsafe: the spec gives 0x3000 as a default only (notes/assumptions/5.md). A claim that
must not rest on it speaks of `Machine.State.resetAt p` for every `p`. -/
def Config.pcStart : Word := 0x3000

/-- `IN_PROMPT`, the codes IN writes before it reads (R7, R185, decision D12). Opaque: the spec gives no
text, so a claim holds for every text (notes/assumptions/11.md; safe). -/
opaque Config.inPrompt : List Word

/-- `HALT_NOTICE`, the codes HALT writes before it clears RUN (R7, R188, decision D13). Opaque: the spec
gives no text, so a claim holds for every text (notes/assumptions/11.md; safe). -/
opaque Config.haltNotice : List Word

/-- `MEM_WORDS`, the number of memory cells (R6). -/
def Config.memWords : Nat := 65536

/-- The EOF sentinel GETC and IN leave in R0 at the end of the input (R6, R182). -/
def Config.eofSentinel : Word := 0xFFFF

end Sys2Proof
end

