-- ==== Sys2Proof/Machine/State.lean ====
section
/-! DEFINITION. The state of the core as plain data (spec/10_state.md section 1), the console's two channels
beside it (R35), what a step can stop with, and the state after reset (R40 to R44, R240). -/

namespace Sys2Proof.Machine

/-- The register file R0 to R7 (R20); read and written only through `RegFile.read` and `RegFile.write`. -/
structure RegFile where
  r0 : Word
  r1 : Word
  r2 : Word
  r3 : Word
  r4 : Word
  r5 : Word
  r6 : Word
  r7 : Word
  deriving DecidableEq, Repr

/-- The three states of the condition-flag register (R27, R29). -/
inductive Cond where
  | negative
  | zero
  | positive
  deriving DecidableEq, Repr

/-- A cause record of the fault latch (R31, R210). -/
inductive Cause where
  /-- RTI or RES was executed: the address it was fetched from and its opcode, 8 or 13. -/
  | illegalOpcode (addr : Word) (opcode : BitVec 4)
  /-- TRAP with a vector outside 0x20 to 0x25: the address it was fetched from and the vector. -/
  | illegalTrapVector (addr : Word) (vector : BitVec 8)
  deriving DecidableEq, Repr

/-- The cells of memory that do not hold the reset contents: pairs of an address and the 16-bit word in
that cell (R33, R50: the smallest addressable unit is the word; notes/assumptions/17.md). An unlisted
cell reads `Memory.unlisted`. -/
abbrev Memory := List (Nat × Word)

/-- What an unlisted cell reads: the reset contents of every cell (R44). -/
abbrev Memory.unlisted : Word := 0

/-- The canonical form: addresses strictly rising, each an address of the machine, and no cell listed that
holds what an unlisted cell reads. -/
abbrev Memory.wf (m : Memory) : Prop :=
  m.Pairwise (fun c d => c.1 < d.1) ∧ ∀ c ∈ m, c.1 < 65536 ∧ c.2 ≠ Memory.unlisted

/-- What a console read delivers (R181). -/
inductive ConsoleItem where
  /-- A 16-bit character code. -/
  | code (c : Word)
  /-- The end of the input. -/
  | eof
  deriving DecidableEq, Repr

/-- The machine status of R36, a function of RUN and FAULT. -/
inductive Status where
  | running
  | halted
  | faulted
  deriving DecidableEq, Repr

/-- The state of the machine. -/
structure State where
  /-- R0 to R7 (R20). -/
  regs : RegFile
  /-- The program counter (R24). -/
  pc : Word
  /-- COND, the condition-flag register (R27). -/
  cond : Cond
  /-- RUN, the running flag (R30). -/
  run : Bool
  /-- FAULT, the fault latch (R31). -/
  fault : Option Cause
  /-- M, the 65536 cells of memory (R33). -/
  mem : Memory
  /-- The console input codes the host has supplied and no routine has consumed, next first (R35). -/
  input : List Word
  /-- The host has ended the input: EOF stands after the last code of `input` (R181). -/
  inputClosed : Bool
  /-- The codes written to the console, oldest first (R35). -/
  output : List Word
  deriving DecidableEq, Repr

/-- Why the machine has no next state. Each is a point where the spec itself says that no step, or no
successor of the step, exists; the state stays as it was before the step. -/
inductive Fault where
  /-- `step` raises it when RUN = 0: a HALTED or FAULTED machine takes no step (R125). Safe. -/
  | notRunning
  /-- GETC and IN raise it when the host has supplied neither a code nor EOF: the step waits (R187 (1), U10).
  The host moves (`State.supplyCode`, `State.closeInput`) and the same instruction is stepped again. Safe. -/
  | awaitingInput
  /-- PUTS and PUTSP raise it when no cell of memory is zero: the routine never completes (R187 (2), U11,
  decision D15). Safe. -/
  | unterminatedString
  deriving DecidableEq, Repr

/-- Why an instruction has no meaning in the model. -/
inductive Refusal where
  /-- Raised by `exec` alone, for an instruction the model gives no meaning. No instruction of this model
  raises it. Safe. -/
  | notModelled (mnemonic : String)
  deriving DecidableEq, Repr

/-- What a meaning answers. -/
abbrev Result := Host.Outcome State Fault Refusal

/-- The state after reset with `PC_START = p` (R40 to R44, R240). COND is the spec's decision D4, RUN and
FAULT its decisions D6 and D7 (notes/assumptions/4.md, 6.md). Nothing has been supplied or written on the
console (DESIGN CHOICE, notes/assumptions/12.md, 20.md). -/
def State.resetAt (p : Word) : State where
  regs := ⟨0, 0, 0, 0, 0, 0, 0, 0⟩
  pc := p
  cond := .zero
  run := true
  fault := none
  mem := []
  input := []
  inputClosed := false
  output := []

/-- The state after reset, with the spec's default `PC_START` (R41; notes/assumptions/5.md). -/
def State.reset : State := State.resetAt Config.pcStart

end Sys2Proof.Machine
end

