-- ==== Sys2Proof/Machine/Ops.lean ====
section
/-! DEFINITION. The named operations over registers, memory, program counter and console (spec/00_scope.md
R10), the fetch and the increment of the cycle (spec/40_cycle.md R121, R122), and taking a fatal stop
(spec/60_exceptions.md R212). There is no return from one (R218). -/

namespace Sys2Proof.Machine

/-! ### Registers -/

/-- `R[i]` (R10, R21). -/
def RegFile.read (f : RegFile) : Reg → Word
  | .r0 => f.r0
  | .r1 => f.r1
  | .r2 => f.r2
  | .r3 => f.r3
  | .r4 => f.r4
  | .r5 => f.r5
  | .r6 => f.r6
  | .r7 => f.r7

/-- `R[i] <- v` (R10, R21). -/
def RegFile.write (f : RegFile) (r : Reg) (v : Word) : RegFile :=
  match r with
  | .r0 => { f with r0 := v }
  | .r1 => { f with r1 := v }
  | .r2 => { f with r2 := v }
  | .r3 => { f with r3 := v }
  | .r4 => { f with r4 := v }
  | .r5 => { f with r5 := v }
  | .r6 => { f with r6 := v }
  | .r7 => { f with r7 := v }

/-- `R[i]` of the machine. -/
def State.reg (s : State) (r : Reg) : Word := s.regs.read r

/-- `R[i] <- v` on the machine; no flag is touched (R28). -/
def State.setReg (s : State) (r : Reg) (v : Word) : State := { s with regs := s.regs.write r v }

/-! ### Memory -/

/-- The word in the cell with number `a`. -/
def Memory.lookup : Memory → Nat → Word
  | [], _ => Memory.unlisted
  | (k, v) :: rest, a => if k = a then v else Memory.lookup rest a

/-- Lists a cell before the first one with a greater address. -/
def Memory.insertCell (a : Nat) (v : Word) : Memory → Memory
  | [] => [(a, v)]
  | (k, w) :: rest => if a < k then (a, v) :: (k, w) :: rest else (k, w) :: Memory.insertCell a v rest

/-- Takes every listing of the cell `a` away. -/
def Memory.eraseCell (m : Memory) (a : Nat) : Memory := m.filter fun c => c.1 ≠ a

/-- `MemRead(a, 16)` (R10, R51): total, no side effect. -/
def Memory.read (m : Memory) (a : Word) : Word := m.lookup a.toNat

/-- `MemWrite(a, 16, v)` (R10, R51): total, changes the one cell. Writing what an unlisted cell reads takes
the cell off the list, so that equal memories are equal lists. -/
def Memory.write (m : Memory) (a v : Word) : Memory :=
  if v = Memory.unlisted then m.eraseCell a.toNat
  else Memory.insertCell a.toNat v (m.eraseCell a.toNat)

/-- `MemRead(a, 16)` on the machine. -/
def State.memRead (s : State) (a : Word) : Word := s.mem.read a

/-- `MemWrite(a, 16, v)` on the machine. -/
def State.memWrite (s : State) (a v : Word) : State := { s with mem := s.mem.write a v }

/-! ### Program counter, fetch, increment -/

/-- `pc <- t` (R10). -/
def State.setPc (s : State) (t : Word) : State := { s with pc := t }

/-- The instruction word at the program counter (R121). -/
def State.fetch (s : State) : Word := s.memRead s.pc

/-- The increment before execution (R122), wrapping from 0xFFFF to 0x0000 (R25). -/
def State.advance (s : State) : State := s.setPc (s.pc + 1)

/-- `A`, the address the instruction being executed was fetched from. Meanings run after the increment, so
it is `pc - 1` modulo 65536 (DEDUCED from R122; notes/assumptions/8.md). -/
def State.instrAddr (s : State) : Word := s.pc - 1

/-- `R[7] <- pc`, the link of JSR, JSRR and TRAP (R23); COND is not touched (R28). -/
def State.link (s : State) : State := s.setReg .r7 s.pc

/-! ### The fatal stop -/

/-- `raise X(info)` (R212): FAULT holds the cause, RUN is cleared, nothing else changes. -/
def State.raise (s : State) (c : Cause) : State := { s with fault := some c, run := false }

/-- Clears the running flag (R30, R188). -/
def State.stop (s : State) : State := { s with run := false }

/-! ### Console -/

/-- `ConsoleWrite(c)` for each code of `cs`, in order (R181). -/
def State.emit (s : State) (cs : List Word) : State := { s with output := s.output ++ cs }

/-- `ConsoleRead()` (R181): the next code, consumed; or EOF, which is not consumed (decision D25); or nothing
at all, when the host has supplied neither, and the read waits (R187). -/
def State.consoleRead (s : State) : Option (ConsoleItem × State) :=
  match s.input with
  | c :: rest => some (.code c, { s with input := rest })
  | [] => if s.inputClosed then some (.eof, s) else none

/-! ### Status -/

/-- The machine status (R36). -/
def State.status (s : State) : Status :=
  if s.run then .running else if s.fault.isSome then .faulted else .halted

end Sys2Proof.Machine
end

