-- ==== Sys2Proof/Machine/Flags.lean ====
section
/-! DEFINITION. The condition flags: `setcc` (spec/40_cycle.md R126), the write of a flag-updating instruction's
result (spec/10_state.md R28), and BR's condition (spec/42_control.md R150). -/

namespace Sys2Proof.Machine

/-- The flag state of a 16-bit value (R126, R127). -/
def Cond.ofValue (v : Word) : Cond :=
  if v = 0 then .zero else if v.msb then .negative else .positive

/-- `setcc(v)` (R126). -/
def State.setcc (s : State) (v : Word) : State := { s with cond := Cond.ofValue v }

/-- `R[dr] <- v; setcc(v)`: what each of the seven flag-updating instructions does with its result (R28). -/
def State.writeResult (s : State) (dr : Reg) (v : Word) : State := (s.setReg dr v).setcc v

/-- BR's condition: some bit set in the instruction matches the active flag (R150). -/
def Cond.taken (n z p : Bool) : Cond → Bool
  | .negative => n
  | .zero => z
  | .positive => p

end Sys2Proof.Machine
end

