-- ==== Sys2Proof/Machine/Operands.lean ====
section
/-! DEFINITION. Operand forms: sign extension (spec/30_encoding.md R95, R96) and the effective addresses of the
addressing modes (spec/42_control.md R154, spec/43_load.md R164, spec/44_store.md R173). -/

namespace Sys2Proof.Machine

/-- `sext_N(f)`, for N = 5, 6, 9, 11 (R95). -/
def sext {n : Nat} (f : BitVec n) : Word := f.signExtend 16

/-- `pc +16 sext_N(off)`: PC-relative, with the incremented program counter (R25, R145). -/
def State.pcRel {n : Nat} (s : State) (off : BitVec n) : Word := s.pc + sext off

/-- The pointer an indirect access reads: `MemRead(pc +16 sext_9(off), 16)` (R161, R171). -/
def State.indirect (s : State) (off : BitVec 9) : Word := s.memRead (s.pcRel off)

/-- `R[baseR] +16 sext_6(off)`: the base register's contents, not its number (R162, R172, C1). -/
def State.baseOff (s : State) (base : Reg) (off : BitVec 6) : Word := s.reg base + sext off

end Sys2Proof.Machine
end

