-- ==== Sys2Proof/Machine/Alu.lean ====
section
/-! DEFINITION. The operate instructions ADD, AND, NOT (spec/41_alu.md). Each meaning runs after the increment
of the program counter. Both sources are read before the destination is written (R140). -/

namespace Sys2Proof.Machine

/-- ADD, register form (R140). -/
def execAddReg (dr sr1 sr2 : Reg) (s : State) : Result :=
  .next (s.writeResult dr (s.reg sr1 + s.reg sr2))

/-- ADD, immediate form (R141). -/
def execAddImm (dr sr1 : Reg) (imm5 : BitVec 5) (s : State) : Result :=
  .next (s.writeResult dr (s.reg sr1 + sext imm5))

/-- AND, register form (R142). -/
def execAndReg (dr sr1 sr2 : Reg) (s : State) : Result :=
  .next (s.writeResult dr (s.reg sr1 &&& s.reg sr2))

/-- AND, immediate form (R143). -/
def execAndImm (dr sr1 : Reg) (imm5 : BitVec 5) (s : State) : Result :=
  .next (s.writeResult dr (s.reg sr1 &&& sext imm5))

/-- NOT (R144). -/
def execNot (dr sr1 : Reg) (s : State) : Result :=
  .next (s.writeResult dr (~~~ s.reg sr1))

end Sys2Proof.Machine
end

