-- ==== Sys2Proof/Machine/Control.lean ====
section
/-! DEFINITION. The control-transfer instructions BR, JMP, JSR, JSRR (spec/42_control.md). Each meaning runs
after the increment of the program counter. -/

namespace Sys2Proof.Machine

/-- BR (R150). -/
def execBr (n z p : Bool) (off : BitVec 9) (s : State) : Result :=
  .next (if s.cond.taken n z p then s.setPc (s.pcRel off) else s)

/-- JMP (R151): the target is the register's contents. -/
def execJmp (baseR : Reg) (s : State) : Result :=
  .next (s.setPc (s.reg baseR))

/-- JSR (R152). -/
def execJsr (off : BitVec 11) (s : State) : Result :=
  .next (s.link.setPc (s.pcRel off))

/-- JSRR (R153): the base is read after R7 has been written, so JSRR R7 falls through (UNVERIFIED: the spec's
decision D16, notes/assumptions/16.md). -/
def execJsrr (baseR : Reg) (s : State) : Result :=
  .next (s.link.setPc (s.link.reg baseR))

end Sys2Proof.Machine
end

