-- ==== Sys2Proof/Machine/Illegal.lean ====
section
/-! DEFINITION. The illegal opcodes RTI and RES (spec/46_illegal.md): a fatal stop, always. -/

namespace Sys2Proof.Machine

/-- RTI (R200): illegal always, since there is no privileged mode and no interrupt (R216, R220, C8). -/
def execRti (s : State) : Result :=
  .next (s.raise (.illegalOpcode s.instrAddr Opcode.rti.number))

/-- RES (R201): the reserved opcode. -/
def execRes (s : State) : Result :=
  .next (s.raise (.illegalOpcode s.instrAddr Opcode.res.number))

end Sys2Proof.Machine
end

