-- ==== Sys2Proof/Machine/Load.lean ====
section
/-! DEFINITION. The load instructions LD, LDI, LDR, LEA (spec/43_load.md). Each meaning runs after the
increment of the program counter; all four set the flags from the value written (R164). -/

namespace Sys2Proof.Machine

/-- LD (R160). -/
def execLd (dr : Reg) (off : BitVec 9) (s : State) : Result :=
  .next (s.writeResult dr (s.memRead (s.pcRel off)))

/-- LDI (R161): the pointer is read first. -/
def execLdi (dr : Reg) (off : BitVec 9) (s : State) : Result :=
  .next (s.writeResult dr (s.memRead (s.indirect off)))

/-- LDR (R162). -/
def execLdr (dr baseR : Reg) (off : BitVec 6) (s : State) : Result :=
  .next (s.writeResult dr (s.memRead (s.baseOff baseR off)))

/-- LEA (R163): no memory access, and the flags are set from the address. -/
def execLea (dr : Reg) (off : BitVec 9) (s : State) : Result :=
  .next (s.writeResult dr (s.pcRel off))

end Sys2Proof.Machine
end

