-- ==== Sys2Proof/Machine/Store.lean ====
section
/-! DEFINITION. The store instructions ST, STI, STR (spec/44_store.md). Each meaning runs after the increment
of the program counter; none writes a register or the flags (R173). -/

namespace Sys2Proof.Machine

/-- ST (R170). -/
def execSt (sr : Reg) (off : BitVec 9) (s : State) : Result :=
  .next (s.memWrite (s.pcRel off) (s.reg sr))

/-- STI (R171): the pointer is read before the write (R64). -/
def execSti (sr : Reg) (off : BitVec 9) (s : State) : Result :=
  .next (s.memWrite (s.indirect off) (s.reg sr))

/-- STR (R172). -/
def execStr (sr baseR : Reg) (off : BitVec 6) (s : State) : Result :=
  .next (s.memWrite (s.baseOff baseR off) (s.reg sr))

end Sys2Proof.Machine
end

