-- ==== Sys2Proof/Machine/Trap.lean ====
section
/-! DEFINITION. TRAP and the six service routines the core performs itself, inside the TRAP's one step
(spec/45_trap.md, R124). -/

namespace Sys2Proof.Machine

/-- The six service routines (R180). -/
inductive Service where
  | getc | out | puts | inp | putsp | halt
  deriving DecidableEq, Repr

/-- The routine a trap vector selects; none for the other 250 vectors (R180, R189). -/
def Service.ofVector (v : BitVec 8) : Option Service :=
  match v.toNat with
  | 0x20 => some .getc
  | 0x21 => some .out
  | 0x22 => some .puts
  | 0x23 => some .inp
  | 0x24 => some .putsp
  | 0x25 => some .halt
  | _ => none

/-- The words from address `a` up to the first zero word, which is left out; `none` if no zero word is
among the next `fuel` cells. The address wraps (R184). -/
def scanString (m : Memory) : Nat → Word → Option (List Word)
  | 0, _ => none
  | fuel + 1, a =>
    if m.read a = 0 then some [] else (scanString m fuel (a + 1)).map fun rest => m.read a :: rest

/-- The string R0 points at. A scan of all 65536 cells without a zero never ends (R187, decision D15). -/
def State.string (s : State) : Option (List Word) := scanString s.mem Config.memWords (s.reg .r0)

/-- The characters packed in a word: the low byte, then the high byte if it is not zero (R186). -/
def unpack (w : Word) : List Word :=
  let low : Word := (w.extractLsb' 0 8).setWidth 16
  let high : Word := (w.extractLsb' 8 8).setWidth 16
  if high = 0 then [low] else [low, high]

/-- GETC (R182): one code into R0, or the sentinel at the end of the input; no echo. -/
def serveGetc (s : State) : Result :=
  match s.consoleRead with
  | none => .fault .awaitingInput
  | some (.code c, t) => .next (t.setReg .r0 c)
  | some (.eof, t) => .next (t.setReg .r0 Config.eofSentinel)

/-- OUT (R183): the whole of R0 is the code. -/
def serveOut (s : State) : Result := .next (s.emit [s.reg .r0])

/-- PUTS (R184). -/
def servePuts (s : State) : Result :=
  match s.string with
  | none => .fault .unterminatedString
  | some ws => .next (s.emit ws)

/-- IN (R185) with the prompt text `prompt`: prompt, read, echo, store; nothing is echoed at the end of the
input (decision D14). -/
def serveIn (prompt : List Word) (s : State) : Result :=
  match (s.emit prompt).consoleRead with
  | none => .fault .awaitingInput
  | some (.code c, t) => .next ((t.emit [c]).setReg .r0 c)
  | some (.eof, t) => .next (t.setReg .r0 Config.eofSentinel)

/-- PUTSP (R186). -/
def servePutsp (s : State) : Result :=
  match s.string with
  | none => .fault .unterminatedString
  | some ws => .next (s.emit (ws.flatMap unpack))

/-- HALT (R188) with the notice text `notice`: the notice, then RUN is cleared; FAULT is not touched. -/
def serveHalt (notice : List Word) (s : State) : Result := .next (s.emit notice).stop

/-- The routine's effect on the state in which R7 has been written. -/
def serve (r : Service) (s : State) : Result :=
  match r with
  | .getc => serveGetc s
  | .out => serveOut s
  | .puts => servePuts s
  | .inp => serveIn Config.inPrompt s
  | .putsp => servePutsp s
  | .halt => serveHalt Config.haltNotice s

/-- TRAP (R180): R7 first, for every vector (decision D10); then the routine, or for an undefined vector the
fatal stop of R189 (decision D9; notes/assumptions/9.md). -/
def execTrap (v : BitVec 8) (s : State) : Result :=
  match Service.ofVector v with
  | some r => serve r s.link
  | none => .next (s.link.raise (.illegalTrapVector s.instrAddr v))

end Sys2Proof.Machine
end

