-- ==== Sys2Proof/Machine/Step.lean ====
section
/-! DEFINITION. One step of the machine: fetch, increment, decode, execute, while RUN = 1
(spec/40_cycle.md R120, R125). -/

namespace Sys2Proof.Machine

/-- One step (R120). With RUN = 0 there is none (R125; notes/assumptions/7.md). -/
def step (s : State) : Host.Outcome State Fault Refusal :=
  if s.run then exec (decode s.fetch) s.advance else .fault .notRunning

/-- `s` with the instruction word of an opcode-table entry stored where the next step fetches, and RUN set,
which the fetch needs. It stands for the host's image load (notes/assumptions/18.md). -/
def State.withFetchWord (s : State) (nbits w : Nat) : State :=
  { s.memWrite s.pc (tableWord nbits w) with run := true }

end Sys2Proof.Machine
end

