-- ==== Sys2Proof/Machine/HostInterface.lean ====
section
/-! DEFINITION. The host's moves (spec/70_reset_and_hazards.md R256): the image load (R250 to R254), the launch,
the console input during a run (spec/45_trap.md R181) and the stop status. None is a step of the core. -/

namespace Sys2Proof.Machine

/-- Why a load fails (R254). -/
inductive LoadError where
  /-- The file cannot be opened. -/
  | cannotOpen
  /-- The file is shorter than two bytes. -/
  | missingOrigin
  deriving DecidableEq, Repr

/-- The big-endian words of a list of bytes; a trailing odd byte is ignored (R251). -/
def wordsOfBytes : List Byte → List Word
  | hi :: lo :: rest => wordOfBytes hi lo :: wordsOfBytes rest
  | _ => []

/-- Places words in the cells `a`, `a + 1`, …; words that would fall beyond the last cell are dropped and do
not wrap (R252). -/
def Memory.place (m : Memory) (a : Nat) : List Word → Memory
  | [] => m
  | w :: ws => if a < Config.memWords then Memory.place (m.write (BitVec.ofNat 16 a) w) (a + 1) ws else m

/-- The image load (R250): the first word is the origin, the others go to the cells from it on; memory is
all it writes (R253). -/
def loadImage (bytes : List Byte) (s : State) : Except LoadError State :=
  match wordsOfBytes bytes with
  | [] => .error .missingOrigin
  | origin :: ws => .ok { s with mem := s.mem.place origin.toNat ws }

/-- The loader on a file: its bytes, or none where it cannot be opened (R254). -/
def loadFile (file : Option (List Byte)) (s : State) : Except LoadError State :=
  match file with
  | none => .error .cannotOpen
  | some bytes => loadImage bytes s

/-- How a program comes to run: reset, then the one image load, with the console input the host has ready
(`codes`, and whether EOF follows them). On a LoadError there is no run (R254). -/
def launch (pcStart : Word) (file : Option (List Byte)) (codes : List Word) (closed : Bool) :
    Except LoadError State :=
  loadFile file { State.resetAt pcStart with input := codes, inputClosed := closed }

/-- The host supplies one more code (R181, R256). A closed stream stays closed and takes no more
(decision D25). -/
def State.supplyCode (s : State) (c : Word) : State :=
  if s.inputClosed then s else { s with input := s.input ++ [c] }

/-- The host ends the input (R181). -/
def State.closeInput (s : State) : State := { s with inputClosed := true }

/-- What the host's exit code tells (R128, R214): none while the run goes on; `true` for the exit code 0 of a
clean stop; `false` for the non-zero exit code of a fatal one. -/
def State.exitedCleanly (s : State) : Option Bool :=
  match s.status with
  | .running => none
  | .halted => some true
  | .faulted => some false

end Sys2Proof.Machine
end

