-- ==== Sys2Proof/Safety.lean ====
section
/-! DEFINITION. The terms claims are stated in: the invariant of a run, the numbers the spec's arithmetic speaks
of, what an instruction may change (its frame), and which registers it reads and writes. -/

namespace Sys2Proof.Machine

/-! ### The invariant -/

/-- A state a run can be in: memory in its canonical form, and a cause in the latch only with RUN cleared
(spec/10_state.md R36). -/
structure State.Inv (s : State) : Prop where
  /-- Memory is canonical. -/
  mem_wf : s.mem.wf
  /-- `RUN = 1` with FAULT not `none` does not occur (R36). -/
  fault_stopped : s.fault ≠ none → s.run = false

/-- A run of `k` steps, stopping at the first step that does not exist (spec/40_cycle.md R128); it is the host's
`Host.Core.run` on this machine (Laws/Step.lean). -/
def runFor : Nat → State → Result
  | 0, s => .next s
  | k + 1, s =>
    match step s with
    | .next t => runFor k t
    | .fault r => .fault r
    | .refused r => .refused r

/-! ### The spec's arithmetic -/

/-- `sext_N(f)` as the spec writes it, on unsigned numbers (spec/30_encoding.md R95). -/
def sextNat {n : Nat} (f : BitVec n) : Nat :=
  if f.toNat < 2 ^ (n - 1) then f.toNat else f.toNat + 65536 - 2 ^ n

/-- The register whose number the three bits of `w` from bit `lo` up are: `w / 2^lo mod 8` (R84). -/
def regAt (w : Word) (lo : Nat) : Reg := Reg.ofBits (BitVec.ofNat 3 (w.toNat / 2 ^ lo))

/-- COND is the state `setcc v` gives, in terms of ranges (spec/40_cycle.md R126): ZERO for 0x0000, POSITIVE
for 0x0001 to 0x7FFF, NEGATIVE for 0x8000 to 0xFFFF. -/
def FlagsFrom (v : Word) (c : Cond) : Prop :=
  (c = .zero ↔ v.toNat = 0) ∧ (c = .positive ↔ 1 ≤ v.toNat ∧ v.toNat ≤ 0x7FFF) ∧
    (c = .negative ↔ 0x8000 ≤ v.toNat)

/-! ### Frames: what `t` keeps of `s` -/

/-- Every register outside the list is kept. -/
def RegsKept (changed : List Reg) (s t : State) : Prop := ∀ r, r ∉ changed → t.reg r = s.reg r

/-- Every cell of memory is kept. -/
def MemKept (s t : State) : Prop := ∀ a, t.memRead a = s.memRead a

/-- Every cell of memory but `ea` is kept. -/
def MemKeptBut (ea : Word) (s t : State) : Prop := ∀ a, a ≠ ea → t.memRead a = s.memRead a

/-- Both console channels are kept. -/
def ConsoleKept (s t : State) : Prop :=
  t.input = s.input ∧ t.inputClosed = s.inputClosed ∧ t.output = s.output

/-- RUN and FAULT are kept. -/
def StatusKept (s t : State) : Prop := t.run = s.run ∧ t.fault = s.fault

/-- `t` is `s` after a flag-updating instruction has written `v` to `dr`: COND follows `v` and everything else,
the incremented program counter too, is kept (spec/10_state.md R28, spec/40_cycle.md R123). -/
def WroteResult (dr : Reg) (v : Word) (s t : State) : Prop :=
  t.reg dr = v ∧ FlagsFrom v t.cond ∧ RegsKept [dr] s t ∧ t.pc = s.pc ∧ MemKept s t ∧
    ConsoleKept s t ∧ StatusKept s t

/-- `t` is `s` with the program counter at `target` and nothing else changed but the registers listed
(spec/42_control.md R154). -/
def Jumped (target : Word) (changed : List Reg) (s t : State) : Prop :=
  t.pc = target ∧ RegsKept changed s t ∧ t.cond = s.cond ∧ MemKept s t ∧ ConsoleKept s t ∧ StatusKept s t

/-- `t` is `s` with the word `v` in the cell `ea` and nothing else changed (spec/44_store.md R173). -/
def Stored (ea v : Word) (s t : State) : Prop :=
  t.memRead ea = v ∧ MemKeptBut ea s t ∧ RegsKept [] s t ∧ t.cond = s.cond ∧ t.pc = s.pc ∧
    ConsoleKept s t ∧ StatusKept s t

/-- `t` is `s` after a trap routine that goes on: R7 holds the incremented program counter, and pc, COND, memory,
RUN, FAULT and the registers outside the list are kept; `out` has been written to the
console, and the input stream is open or closed as before (spec/45_trap.md R180, R190). -/
def Served (changed : List Reg) (out : List Word) (s t : State) : Prop :=
  t.reg .r7 = s.pc ∧ RegsKept changed s t ∧ t.output = s.output ++ out ∧ t.pc = s.pc ∧ t.cond = s.cond ∧
    MemKept s t ∧ StatusKept s t ∧ t.inputClosed = s.inputClosed

/-- `t` is `s` after a fatal stop with the cause `c`: FAULT and RUN, and the registers listed, are all that
changed (spec/60_exceptions.md R212, R213). -/
def FatallyStopped (c : Cause) (changed : List Reg) (s t : State) : Prop :=
  t.fault = some c ∧ t.run = false ∧ RegsKept changed s t ∧ t.pc = s.pc ∧ t.cond = s.cond ∧ MemKept s t ∧
    ConsoleKept s t

end Sys2Proof.Machine

namespace Sys2Proof

open Machine

/-! ### Which instructions do what -/

/-- The register a flag-updating instruction writes; `none` for every other instruction: the seven of R28 are
ADD, AND, NOT, LD, LDI, LDR, LEA. -/
def Instr.resultReg : Instr → Option Reg
  | .addReg dr _ _ | .addImm dr _ _ | .andReg dr _ _ | .andImm dr _ _ | .not dr _ | .ld dr _ | .ldi dr _
  | .ldr dr _ _ | .lea dr _ => some dr
  | .br .. | .jmp .. | .jsr .. | .jsrr .. | .st .. | .sti .. | .str .. | .trap .. | .rti | .res => none

/-- The registers an instruction reads: the table of R22. -/
def Instr.regsRead : Instr → List Reg
  | .addReg _ sr1 sr2 | .andReg _ sr1 sr2 => [sr1, sr2]
  | .addImm _ sr1 _ | .andImm _ sr1 _ | .not _ sr1 => [sr1]
  | .br .. | .jsr .. | .ld .. | .ldi .. | .lea .. | .rti | .res => []
  | .jmp baseR | .jsrr baseR | .ldr _ baseR _ => [baseR]
  | .st sr _ | .sti sr _ => [sr]
  | .str sr baseR _ => [sr, baseR]
  | .trap v => if v = 0x21 ∨ v = 0x22 ∨ v = 0x24 then [.r0] else []

/-- The registers an instruction writes: the table of R22. -/
def Instr.regsWritten : Instr → List Reg
  | .addReg dr _ _ | .addImm dr _ _ | .andReg dr _ _ | .andImm dr _ _ | .not dr _ | .ld dr _ | .ldi dr _
  | .ldr dr _ _ | .lea dr _ => [dr]
  | .br .. | .jmp .. | .st .. | .sti .. | .str .. | .rti | .res => []
  | .jsr _ | .jsrr _ => [.r7]
  | .trap v => if v = 0x20 ∨ v = 0x23 then [.r0, .r7] else [.r7]

/-- The cell a store writes, from the state after the increment: the address its meaning uses; `none` for
every other instruction (spec/20_memory.md R52). -/
def Instr.storeAddr (s : State) : Instr → Option Word
  | .st _ off => some (s.pcRel off)
  | .sti _ off => some (s.indirect off)
  | .str _ baseR off => some (s.baseOff baseR off)
  | .br .. | .addReg .. | .addImm .. | .ld .. | .jsrr .. | .jsr .. | .andReg .. | .andImm .. | .ldr .. | .rti
  | .not .. | .ldi .. | .jmp .. | .res | .lea .. | .trap .. => none

/-- The register whose contents a store writes. -/
def Instr.storeReg : Instr → Option Reg
  | .st sr _ | .sti sr _ | .str sr _ _ => some sr
  | .br .. | .addReg .. | .addImm .. | .ld .. | .jsrr .. | .jsr .. | .andReg .. | .andImm .. | .ldr .. | .rti
  | .not .. | .ldi .. | .jmp .. | .res | .lea .. | .trap .. => none

/-- The instruction waits for the console: GETC or IN, and the host has supplied neither a code nor EOF
(spec/45_trap.md R187 (1)). -/
def Instr.waits (i : Instr) (s : State) : Prop :=
  (i = .trap 0x20 ∨ i = .trap 0x23) ∧ s.input = [] ∧ s.inputClosed = false

/-- The instruction scans for ever: PUTS or PUTSP, and no cell of memory is zero (R187 (2)). -/
def Instr.scansForever (i : Instr) (s : State) : Prop :=
  (i = .trap 0x22 ∨ i = .trap 0x24) ∧ ∀ a, s.memRead a ≠ 0

/-- The instruction ends in a fatal stop: RTI, RES, or TRAP with an undefined vector (spec/60_exceptions.md
R210). -/
def Instr.fatal : Instr → Bool
  | .rti | .res => true
  | .trap v => v.toNat < 0x20 || 0x25 < v.toNat
  | .br .. | .addReg .. | .addImm .. | .ld .. | .st .. | .jsrr .. | .jsr .. | .andReg .. | .andImm .. | .ldr ..
  | .str .. | .not .. | .ldi .. | .sti .. | .jmp .. | .lea .. => false

end Sys2Proof
end

