-- ==== Sys2Proof/Certificates/Slice0/Obligations.lean ====
section
/-! DEFINITION. The statements about the machine, each from the numbered rules of spec/. Unless a docstring says
otherwise `s` is the state a meaning runs on: the program counter has already been incremented (R122). -/

open Sys2Proof Sys2Proof.Machine

/-! ### Reset -/

/-- R40, R41, R44: after reset every register is 0x0000, pc is PC_START, every cell is 0x0000, for every
PC_START. -/
def Obligations.ResetZeroesRegistersAndMemory : Prop :=
  ∀ p : Word, (∀ r, (State.resetAt p).reg r = 0) ∧ (State.resetAt p).pc = p ∧
    ∀ a, (State.resetAt p).memRead a = 0

/-- What the spec decides and the model chooses at reset: COND = ZERO (decision D4, log entry 4), RUN = 1 and
FAULT = none (D6, D7, log entry 6), nothing on the console (log entries 12, 20), and PC_START at its default
in `State.reset` (D5, log entry 5). -/
def Obligations.ResetFlagRunAndConsole : Prop :=
  State.reset = State.resetAt 0x3000 ∧
  ∀ p : Word, (State.resetAt p).cond = .zero ∧ (State.resetAt p).status = .running ∧
    (State.resetAt p).fault = none ∧ (State.resetAt p).input = [] ∧
    (State.resetAt p).inputClosed = false ∧ (State.resetAt p).output = []

/-! ### The step -/

/-- R120: while RUN = 1, one step fetches the word at pc, increments pc modulo 65536 and runs the decoded
instruction on that state, in which nothing else has changed; with RUN = 0 it is not enabled. -/
def Obligations.StepRunsTheFetchedInstruction : Prop :=
  ∀ (s : State) (i : Instr), decode (s.memRead s.pc) = i →
    (s.run = true → ∃ u, step s = exec i u ∧ u.pc.toNat = (s.pc.toNat + 1) % 65536 ∧ u = { s with pc := u.pc }) ∧
    (s.run = false → ∀ t, step s ≠ .next t)

/-- R125: with RUN = 0 there is no step (a stop of the model's own name, log entry 7). -/
def Obligations.StoppedMachineTakesNoStep : Prop :=
  ∀ s : State, s.run = false → step s = .fault .notRunning ∧ ∀ k, runFor (k + 1) s = .fault .notRunning

/-- R187, R211: a running machine's step always answers a next state, but where GETC or IN has no input and no
EOF, and where PUTS or PUTSP scans a memory with no zero word; there it stops under that name (log entries
13, 14). No other instruction, operand, address or value stops it. -/
def Obligations.StepCompletesUnlessItWaits : Prop :=
  ∀ s : State, s.run = true →
    ((decode s.fetch).waits s.advance → step s = .fault .awaitingInput) ∧
    ((decode s.fetch).scansForever s.advance → step s = .fault .unterminatedString) ∧
    (¬ (decode s.fetch).waits s.advance → ¬ (decode s.fetch).scansForever s.advance → ∃ t, step s = .next t)

/-- R36: every step keeps the invariant: memory stays canonical (the model's own form, log entry 17), and a
cause is latched only with RUN = 0 (the latch is decision D7, log entry 6). -/
def Obligations.StepKeepsTheInvariant : Prop :=
  ∀ s t : State, s.Inv → step s = .next t → t.Inv

/-- The invariant holds after reset, for every PC_START (log entries 6, 17). -/
def Obligations.InvariantHoldsAtReset : Prop :=
  ∀ p : Word, (State.resetAt p).Inv

/-- The host's moves keep the invariant: a load that succeeds, a code supplied, the input closed (log entries
12, 17). -/
def Obligations.HostMovesKeepTheInvariant : Prop :=
  ∀ s : State, s.Inv →
    (∀ bytes t, loadImage bytes s = .ok t → t.Inv) ∧ (∀ c, (s.supplyCode c).Inv) ∧ s.closeInput.Inv

/-! ### Encoding -/

/-- Decoding an encoded instruction gives it back, for every instruction with every operand. The numbers and
positions are in part decisions D1 and D2 of the spec (log entries 1, 2). -/
def Obligations.DecodeOfEncodeIsTheInstruction : Prop :=
  ∀ i : Instr, decode (encode i) = i

/-- Encoding a decoded word gives the word back exactly when its unused bits are the customary ones (R102;
log entry 19). -/
def Obligations.EncodeOfDecodeIsTheCustomaryWord : Prop :=
  ∀ w : Word, encode (decode w) = w ↔ wordWellFormed w = true

/-- R100: every word is of exactly one of the nineteen forms of the match and mask table, and it is the form
it decodes to (decision D1, log entry 1). -/
def Obligations.EveryWordIsExactlyOneForm : Prop :=
  Form.all.length = 19 ∧ ∀ (w : Word) (f : Form), f ∈ Form.all ∧ (f.holds w = true ↔ (decode w).form = f)

/-- R102: two words that differ only in the unused bits of their form are the same instruction (decision D3,
log entry 3). -/
def Obligations.UnusedBitsAreIgnored : Prop :=
  ∀ (f : Form) (w w' : Word), f.holds w = true → w ||| f.row.unused = w' ||| f.row.unused →
    decode w = decode w'

/-- R84 for ADD, AND, NOT: the fields as slices of the word, written as arithmetic (decisions D1, D2, log
entries 1, 2). -/
def Obligations.AluWordsDecodeBySlices : Prop :=
  ∀ w : Word,
    (w.toNat / 4096 = 1 → w.toNat / 32 % 2 = 0 → decode w = .addReg (regAt w 9) (regAt w 6) (regAt w 0)) ∧
    (w.toNat / 4096 = 1 → w.toNat / 32 % 2 = 1 →
      decode w = .addImm (regAt w 9) (regAt w 6) (BitVec.ofNat 5 w.toNat)) ∧
    (w.toNat / 4096 = 5 → w.toNat / 32 % 2 = 0 → decode w = .andReg (regAt w 9) (regAt w 6) (regAt w 0)) ∧
    (w.toNat / 4096 = 5 → w.toNat / 32 % 2 = 1 →
      decode w = .andImm (regAt w 9) (regAt w 6) (BitVec.ofNat 5 w.toNat)) ∧
    (w.toNat / 4096 = 9 → decode w = .not (regAt w 9) (regAt w 6))

/-- R84 for BR, JMP, JSR, JSRR (decision D1, log entry 1). -/
def Obligations.ControlWordsDecodeBySlices : Prop :=
  ∀ w : Word,
    (w.toNat / 4096 = 0 → decode w = .br (w.toNat / 2048 % 2 == 1) (w.toNat / 1024 % 2 == 1)
      (w.toNat / 512 % 2 == 1) (BitVec.ofNat 9 w.toNat)) ∧
    (w.toNat / 4096 = 12 → decode w = .jmp (regAt w 6)) ∧
    (w.toNat / 4096 = 4 → w.toNat / 2048 % 2 = 1 → decode w = .jsr (BitVec.ofNat 11 w.toNat)) ∧
    (w.toNat / 4096 = 4 → w.toNat / 2048 % 2 = 0 → decode w = .jsrr (regAt w 6))

/-- R84 for the loads and stores (decision D1, log entry 1). -/
def Obligations.LoadStoreWordsDecodeBySlices : Prop :=
  ∀ w : Word,
    (w.toNat / 4096 = 2 → decode w = .ld (regAt w 9) (BitVec.ofNat 9 w.toNat)) ∧
    (w.toNat / 4096 = 10 → decode w = .ldi (regAt w 9) (BitVec.ofNat 9 w.toNat)) ∧
    (w.toNat / 4096 = 6 → decode w = .ldr (regAt w 9) (regAt w 6) (BitVec.ofNat 6 w.toNat)) ∧
    (w.toNat / 4096 = 14 → decode w = .lea (regAt w 9) (BitVec.ofNat 9 w.toNat)) ∧
    (w.toNat / 4096 = 3 → decode w = .st (regAt w 9) (BitVec.ofNat 9 w.toNat)) ∧
    (w.toNat / 4096 = 11 → decode w = .sti (regAt w 9) (BitVec.ofNat 9 w.toNat)) ∧
    (w.toNat / 4096 = 7 → decode w = .str (regAt w 9) (regAt w 6) (BitVec.ofNat 6 w.toNat))

/-- R84, R101 for TRAP, RTI, RES (decision D1, log entry 1). -/
def Obligations.TrapAndIllegalWordsDecodeBySlices : Prop :=
  ∀ w : Word,
    (w.toNat / 4096 = 15 → decode w = .trap (BitVec.ofNat 8 w.toNat)) ∧
    (w.toNat / 4096 = 8 → decode w = .rti) ∧
    (w.toNat / 4096 = 13 → decode w = .res)

/-- Twelve words of the spec's own vectors (V11, V14, V17, V19, V20) decode to the instructions they stand for. The
opcode numbers and field positions are in part decisions D1 and D2, and that the unused bits of 0xFF20, 0xDABC,
0x8FFF and 0x9040 are ignored is decision D3 (log entries 1, 2, 3). -/
def Obligations.SampleWordsDecode : Prop :=
  decode 0x12BF = .addImm .r1 .r2 0x1F ∧ decode 0x5705 = .andReg .r3 .r4 .r5 ∧
  decode 0x0802 = .br true false false 2 ∧ decode 0x4FFF = .jsr 0x7FF ∧ decode 0x41C0 = .jsrr .r7 ∧
  decode 0x6283 = .ldr .r1 .r2 3 ∧ decode 0x72BF = .str .r1 .r2 0x3F ∧ decode 0xF025 = .trap 0x25 ∧
  decode 0xFF20 = .trap 0x20 ∧ decode 0xDABC = .res ∧ decode 0x8FFF = .rti ∧ decode 0x9040 = .not .r0 .r1

/-- R95, R97: sign extension of the four signed fields is the spec's arithmetic, and extending again at the same
width changes nothing. -/
def Obligations.SignExtensionArithmetic : Prop :=
  ∀ n : Nat, n = 5 ∨ n = 6 ∨ n = 9 ∨ n = 11 → ∀ f : BitVec n,
    (sext f).toNat = sextNat f ∧ sext ((sext f).setWidth n) = sext f

/-- R126, R127: `setcc v` leaves exactly the state the three ranges give, and changes nothing but COND. -/
def Obligations.FlagFunctionByRanges : Prop :=
  ∀ (s : State) (v : Word), FlagsFrom v (s.setcc v).cond ∧ s.setcc v = { s with cond := (s.setcc v).cond }

/-! ### ADD, AND, NOT -/

/-- R140: ADD, register form. -/
def Obligations.AddRegisterWritesTheSum : Prop :=
  ∀ (dr sr1 sr2 : Reg) (s : State), ∃ t, exec (.addReg dr sr1 sr2) s = .next t ∧
    WroteResult dr (BitVec.ofNat 16 (((s.reg sr1).toNat + (s.reg sr2).toNat) % 65536)) s t

/-- R141: ADD, immediate form. -/
def Obligations.AddImmediateWritesTheSum : Prop :=
  ∀ (dr sr1 : Reg) (imm5 : BitVec 5) (s : State), ∃ t, exec (.addImm dr sr1 imm5) s = .next t ∧
    WroteResult dr (BitVec.ofNat 16 (((s.reg sr1).toNat + sextNat imm5) % 65536)) s t

/-- R142: AND, register form: bit k of the result is 1 exactly when bit k of both sources is 1. -/
def Obligations.AndRegisterWritesTheConjunction : Prop :=
  ∀ (dr sr1 sr2 : Reg) (s : State), ∃ t v, exec (.andReg dr sr1 sr2) s = .next t ∧ WroteResult dr v s t ∧
    ∀ k, v.getLsbD k = ((s.reg sr1).getLsbD k && (s.reg sr2).getLsbD k)

/-- R143: AND, immediate form: the immediate's bit 4 stands in bits 15 to 5 of the mask. -/
def Obligations.AndImmediateWritesTheConjunction : Prop :=
  ∀ (dr sr1 : Reg) (imm5 : BitVec 5) (s : State), ∃ t v, exec (.andImm dr sr1 imm5) s = .next t ∧
    WroteResult dr v s t ∧
    ∀ k, v.getLsbD k = ((s.reg sr1).getLsbD k && (if k < 5 then imm5.getLsbD k else imm5.getLsbD 4))

/-- R144: NOT writes 65535 minus its source. -/
def Obligations.NotWritesTheComplement : Prop :=
  ∀ (dr sr1 : Reg) (s : State), ∃ t, exec (.not dr sr1) s = .next t ∧
    WroteResult dr (BitVec.ofNat 16 (65535 - (s.reg sr1).toNat)) s t

/-! ### BR, JMP, JSR, JSRR -/

/-- R150: BR goes to pc + sext offset when a set bit matches COND, else to the next instruction; pc is all it
changes. -/
def Obligations.BranchGoesWhereTheFlagSays : Prop :=
  ∀ (n z p : Bool) (off : BitVec 9) (s : State), ∃ t, exec (.br n z p off) s = .next t ∧
    Jumped (if (n = true ∧ s.cond = .negative) ∨ (z = true ∧ s.cond = .zero) ∨ (p = true ∧ s.cond = .positive)
      then BitVec.ofNat 16 ((s.pc.toNat + sextNat off) % 65536) else s.pc) [] s t

/-- R151: JMP goes to the contents of the base register; pc is all it changes. -/
def Obligations.JumpGoesToTheRegister : Prop :=
  ∀ (baseR : Reg) (s : State), ∃ t, exec (.jmp baseR) s = .next t ∧ Jumped (s.reg baseR) [] s t

/-- R152: JSR links the incremented pc in R7 and adds its offset to it. -/
def Obligations.JsrLinksAndJumps : Prop :=
  ∀ (off : BitVec 11) (s : State), ∃ t, exec (.jsr off) s = .next t ∧ t.reg .r7 = s.pc ∧
    Jumped (BitVec.ofNat 16 ((s.pc.toNat + sextNat off) % 65536)) [.r7] s t

/-- JSRR through R0 to R6 links the incremented pc in R7 and goes to the register's contents (42_control.md
section 3). -/
def Obligations.JsrrLinksAndJumpsToTheRegister : Prop :=
  ∀ (baseR : Reg) (s : State), baseR ≠ .r7 → ∃ t, exec (.jsrr baseR) s = .next t ∧ t.reg .r7 = s.pc ∧
    Jumped (s.reg baseR) [.r7] s t

/-- JSRR R7 falls through: R7 is written before it is read (the spec's decision D16, log entry 16). -/
def Obligations.JsrrThroughR7FallsThrough : Prop :=
  ∀ s : State, ∃ t, exec (.jsrr .r7) s = .next t ∧ t.reg .r7 = s.pc ∧ Jumped s.pc [.r7] s t

/-- A JSR and then a `JMP R7` at its target come back to the instruction after the JSR (R151, R152). -/
def Obligations.ReturnComesBackAfterTheCall : Prop :=
  ∀ (s t : State) (off : BitVec 11), decode s.fetch = .jsr off → step s = .next t →
    decode t.fetch = .jmp .r7 → ∃ u, step t = .next u ∧ u.pc = s.pc + 1

/-! ### LD, LDI, LDR, LEA -/

/-- R160: LD. -/
def Obligations.LdLoadsPcRelative : Prop :=
  ∀ (dr : Reg) (off : BitVec 9) (s : State), ∃ t, exec (.ld dr off) s = .next t ∧
    WroteResult dr (s.memRead (BitVec.ofNat 16 ((s.pc.toNat + sextNat off) % 65536))) s t

/-- R161: LDI reads the pointer and then what it points at. -/
def Obligations.LdiLoadsThroughThePointer : Prop :=
  ∀ (dr : Reg) (off : BitVec 9) (s : State), ∃ t, exec (.ldi dr off) s = .next t ∧
    WroteResult dr (s.memRead (s.memRead (BitVec.ofNat 16 ((s.pc.toNat + sextNat off) % 65536)))) s t

/-- R162: LDR. -/
def Obligations.LdrLoadsBasePlusOffset : Prop :=
  ∀ (dr baseR : Reg) (off : BitVec 6) (s : State), ∃ t, exec (.ldr dr baseR off) s = .next t ∧
    WroteResult dr (s.memRead (BitVec.ofNat 16 (((s.reg baseR).toNat + sextNat off) % 65536))) s t

/-- R163: LEA writes the address itself and sets the flags from it. -/
def Obligations.LeaWritesTheAddress : Prop :=
  ∀ (dr : Reg) (off : BitVec 9) (s : State), ∃ t, exec (.lea dr off) s = .next t ∧
    WroteResult dr (BitVec.ofNat 16 ((s.pc.toNat + sextNat off) % 65536)) s t

/-! ### ST, STI, STR -/

/-- R170: ST writes its register to the cell at pc + sext offset, the address its meaning computes. -/
def Obligations.StStoresPcRelative : Prop :=
  ∀ (sr : Reg) (off : BitVec 9) (s : State), ∃ t, exec (.st sr off) s = .next t ∧
    s.pcRel off = BitVec.ofNat 16 ((s.pc.toNat + sextNat off) % 65536) ∧
    Stored (s.pcRel off) (s.reg sr) s t

/-- R171: STI reads the pointer before it writes, and writes to the cell the pointer names. -/
def Obligations.StiStoresThroughThePointer : Prop :=
  ∀ (sr : Reg) (off : BitVec 9) (s : State), ∃ t, exec (.sti sr off) s = .next t ∧
    s.indirect off = s.memRead (BitVec.ofNat 16 ((s.pc.toNat + sextNat off) % 65536)) ∧
    Stored (s.indirect off) (s.reg sr) s t

/-- R172: STR writes to the cell at the base register's contents + sext offset. -/
def Obligations.StrStoresBasePlusOffset : Prop :=
  ∀ (sr baseR : Reg) (off : BitVec 6) (s : State), ∃ t, exec (.str sr baseR off) s = .next t ∧
    s.baseOff baseR off = BitVec.ofNat 16 (((s.reg baseR).toNat + sextNat off) % 65536) ∧
    Stored (s.baseOff baseR off) (s.reg sr) s t

/-- R66: the step after a store that wrote the next instruction's cell runs the word stored. -/
def Obligations.StoreIsSeenByTheNextFetch : Prop :=
  ∀ (s t : State) (ea : Word) (sr : Reg), step s = .next t →
    (decode s.fetch).storeAddr s.advance = some ea → (decode s.fetch).storeReg = some sr → t.pc = ea →
    step t = exec (decode (s.reg sr)) t.advance

/-! ### TRAP -/

/-- GETC (45_trap.md section 3): one code into R0; 0xFFFF at the end of the input; neither, and it waits. R7 is
written too (decision D10); EOF stays (D25); codes are 16 bits (D11); log entries 9, 10, 12, 13. -/
def Obligations.GetcReadsOneCode : Prop :=
  ∀ s : State,
    (∀ c rest, s.input = c :: rest → ∃ t, exec (.trap 0x20) s = .next t ∧ t.reg .r0 = c ∧ t.input = rest ∧
      Served [.r0, .r7] [] s t) ∧
    (s.input = [] → s.inputClosed = true → ∃ t, exec (.trap 0x20) s = .next t ∧ t.reg .r0 = 0xFFFF ∧
      t.input = [] ∧ Served [.r0, .r7] [] s t) ∧
    (s.input = [] → s.inputClosed = false → exec (.trap 0x20) s = .fault .awaitingInput)

/-- A GETC that waits completes with the code once the host has supplied one (45_trap.md section 4; log entries
12, 13). -/
def Obligations.SuppliedCodeEndsTheWait : Prop :=
  ∀ (s : State) (c : Word), exec (.trap 0x20) s = .fault .awaitingInput →
    ∃ t, exec (.trap 0x20) (s.supplyCode c) = .next t ∧ t.reg .r0 = c ∧ t.input = []

/-- OUT (45_trap.md section 3) writes the whole of R0 (decision D11, log entry 10; R7 by D10, log entry 9). -/
def Obligations.OutWritesR0 : Prop :=
  ∀ s : State, ∃ t, exec (.trap 0x21) s = .next t ∧ t.input = s.input ∧ Served [.r7] [s.reg .r0] s t

/-- PUTS (45_trap.md section 3): with the first zero word n cells after the one R0 names, the n words before it
are written (R7 by decision D10, log entry 9; words whole by D11, log entry 10). -/
def Obligations.PutsWritesTheString : Prop :=
  ∀ (s : State) (n : Nat), n < 65536 →
    (∀ k, k < n → s.memRead (s.reg .r0 + BitVec.ofNat 16 k) ≠ 0) →
    s.memRead (s.reg .r0 + BitVec.ofNat 16 n) = 0 →
    ∃ t, exec (.trap 0x22) s = .next t ∧ t.input = s.input ∧
      Served [.r7] ((List.range n).map fun k => s.memRead (s.reg .r0 + BitVec.ofNat 16 k)) s t

/-- IN (45_trap.md section 3) with the machine's own prompt text: prompt, read, echo, store (decision D23); no
echo at the end of the input (D14); log entries 9, 10, 11, 12, 13, 15. -/
def Obligations.InPromptsReadsAndEchoes : Prop :=
  ∀ s : State,
    (∀ c rest, s.input = c :: rest → ∃ t, exec (.trap 0x23) s = .next t ∧ t.reg .r0 = c ∧ t.input = rest ∧
      Served [.r0, .r7] (Config.inPrompt ++ [c]) s t) ∧
    (s.input = [] → s.inputClosed = true → ∃ t, exec (.trap 0x23) s = .next t ∧ t.reg .r0 = 0xFFFF ∧
      t.input = [] ∧ Served [.r0, .r7] Config.inPrompt s t) ∧
    (s.input = [] → s.inputClosed = false → exec (.trap 0x23) s = .fault .awaitingInput)

/-- PUTSP (45_trap.md section 3): of each word before the zero word the low byte, then the high byte if it is not
zero (decision D20 for a zero low byte, log entry 15; R7 by D10, log entry 9). -/
def Obligations.PutspUnpacksTheString : Prop :=
  ∀ (s : State) (n : Nat), n < 65536 →
    (∀ k, k < n → s.memRead (s.reg .r0 + BitVec.ofNat 16 k) ≠ 0) →
    s.memRead (s.reg .r0 + BitVec.ofNat 16 n) = 0 →
    ∃ t, exec (.trap 0x24) s = .next t ∧ t.input = s.input ∧
      Served [.r7] ((List.range n).flatMap fun k =>
        let w := (s.memRead (s.reg .r0 + BitVec.ofNat 16 k)).toNat
        if w / 256 = 0 then [BitVec.ofNat 16 (w % 256)]
        else [BitVec.ofNat 16 (w % 256), BitVec.ofNat 16 (w / 256)]) s t

/-- HALT (45_trap.md section 3) with the machine's own notice text: the notice, RUN cleared, FAULT kept (R7 by
decision D10, log entry 9; the text is log entry 11). -/
def Obligations.HaltStopsCleanly : Prop :=
  ∀ s : State, ∃ t, exec (.trap 0x25) s = .next t ∧ t.run = false ∧ t.fault = s.fault ∧ t.reg .r7 = s.pc ∧
    RegsKept [.r7] s t ∧ t.output = s.output ++ Config.haltNotice ∧ t.input = s.input ∧
    t.inputClosed = s.inputClosed ∧ t.pc = s.pc ∧ t.cond = s.cond ∧ MemKept s t

/-- TRAP with a vector outside 0x20 to 0x25, fetched from `a`: R7 is written, then the fatal stop (decisions D9,
D10, D7, D8; log entries 6, 9). -/
def Obligations.UndefinedVectorStopsTheMachine : Prop :=
  ∀ (v : BitVec 8) (a : Word) (s : State), v.toNat < 0x20 ∨ 0x25 < v.toNat → s.pc = a + 1 →
    ∃ t, exec (.trap v) s = .next t ∧ t.reg .r7 = a + 1 ∧ FatallyStopped (.illegalTrapVector a v) [.r7] s t

/-! ### RTI, RES -/

/-- RTI fetched from `a` stops the machine with IllegalOpcode(a, 8) (46_illegal.md; the latch is decision D7, log
entry 6; its address D8). -/
def Obligations.RtiStopsTheMachine : Prop :=
  ∀ (a : Word) (s : State), s.pc = a + 1 →
    ∃ t, exec .rti s = .next t ∧ FatallyStopped (.illegalOpcode a 8) [] s t

/-- RES fetched from `a` stops the machine with IllegalOpcode(a, 13) (46_illegal.md; the latch is decision D7, log
entry 6; its address D8). -/
def Obligations.ResStopsTheMachine : Prop :=
  ∀ (a : Word) (s : State), s.pc = a + 1 →
    ∃ t, exec .res s = .next t ∧ FatallyStopped (.illegalOpcode a 13) [] s t

/-! ### Whole-machine rules -/

/-- R28: exactly the seven flag-updating instructions write COND, with the value they write to their register, and
BR alone reads it: with another COND every other instruction does the same, keeping that COND unless it
writes it. -/
def Obligations.CondWritersAndItsOneReader : Prop :=
  ∀ (i : Instr) (s t : State), exec i s = .next t →
    (∀ dr, i.resultReg = some dr → FlagsFrom (t.reg dr) t.cond) ∧
    (i.resultReg = none → t.cond = s.cond) ∧
    (i.form ≠ .br → ∀ c, exec i { s with cond := c } =
      .next (if i.resultReg = none then { t with cond := c } else t))

/-- The upper bound of R22's table (10_state.md section 2; that a listed register is written, and with what, is said
by the statements of the single instructions): an instruction writes no register but those the table lists, and
reads none but those it lists: with another value in a register it does not read, it does the same, keeping that value unless it writes the
register. -/
def Obligations.RegistersReadAndWrittenAsListed : Prop :=
  ∀ (i : Instr) (s t : State), exec i s = .next t →
    (∀ r, r ∉ i.regsWritten → t.reg r = s.reg r) ∧
    (∀ r v, r ∉ i.regsRead → exec i (s.setReg r v) = .next (if r ∈ i.regsWritten then t else t.setReg r v))

/-- R52: an instruction that is no store changes no cell of memory; a store changes at most the cell its meaning
addresses. -/
def Obligations.OnlyStoresWriteMemory : Prop :=
  ∀ (i : Instr) (s t : State), exec i s = .next t →
    (i.storeAddr s = none → t.mem = s.mem) ∧ (∀ ea, i.storeAddr s = some ea → MemKeptBut ea s t)

/-- R25: every instruction but BR, JMP, JSR and JSRR leaves the incremented program counter. -/
def Obligations.OnlyControlTransfersMoveThePc : Prop :=
  ∀ (i : Instr) (s t : State), exec i s = .next t →
    i.form ≠ .br → i.form ≠ .jmp → i.form ≠ .jsr → i.form ≠ .jsrr → t.pc = s.pc

/-- R125, R31: a step clears RUN exactly when it ran HALT or ended in a fatal stop, and writes FAULT exactly in a
fatal stop; then the address latched is the one fetched from (decisions D7, D8, D9; log entries 6, 8, 9). -/
def Obligations.RunAndFaultWriters : Prop :=
  ∀ s t : State, step s = .next t →
    (t.run = false ↔ decode s.fetch = .trap 0x25 ∨ (decode s.fetch).fatal = true) ∧
    ((decode s.fetch).fatal = false → t.fault = s.fault) ∧
    ((decode s.fetch).fatal = true →
      (∃ op, t.fault = some (.illegalOpcode s.pc op)) ∨ (∃ v, t.fault = some (.illegalTrapVector s.pc v)))

/-- R35: the output is a history that only grows, a step consumes at most one code of the input, in order, and only
TRAP touches the console (log entries 12, 20). -/
def Obligations.ConsoleIsAHistory : Prop :=
  ∀ s t : State, step s = .next t →
    (∃ out, t.output = s.output ++ out) ∧ (∃ taken, s.input = taken ++ t.input ∧ taken.length ≤ 1) ∧
    ((decode s.fetch).form ≠ .trap → ConsoleKept s t)

/-- Once the input is at its end it stays there, whatever runs (decision D25, log entry 12). -/
def Obligations.EndOfInputIsSticky : Prop :=
  ∀ (s t : State) (k : Nat), s.input = [] → s.inputClosed = true → runFor k s = .next t →
    t.input = [] ∧ t.inputClosed = true

/-- Over a memory of zeros the core slides upward: k steps add k to pc, modulo 65536, and change nothing else
(R44, R104). -/
def Obligations.ZeroMemoryIsASlide : Prop :=
  ∀ (s : State) (k : Nat), s.run = true → (∀ a, s.memRead a = 0) →
    runFor k s = .next { s with pc := BitVec.ofNat 16 ((s.pc.toNat + k) % 65536) }

/-! ### The image load -/

/-- R250 to R253, R258: the words of the image stand in the cells from the origin on, as many as fit; every
other cell and all other state is kept. Fewer than two bytes are a LoadError. -/
def Obligations.LoadPlacesTheImage : Prop :=
  ∀ (bytes : List Byte) (s : State),
    let b := fun j => (bytes.getD j 0).toNat
    let origin := 256 * b 0 + b 1
    let k := min ((bytes.length - 2) / 2) (65536 - origin)
    (bytes.length < 2 → loadImage bytes s = .error .missingOrigin) ∧
    (2 ≤ bytes.length → ∃ t, loadImage bytes s = .ok t ∧
      (∀ i, i < k → t.memRead (BitVec.ofNat 16 (origin + i)) =
        BitVec.ofNat 16 (256 * b (2 + 2 * i) + b (3 + 2 * i))) ∧
      (∀ a : Word, a.toNat < origin ∨ origin + k ≤ a.toNat → t.memRead a = s.memRead a) ∧
      t = { s with mem := t.mem })

/-- R254: a file that cannot be opened, or shorter than two bytes, is a LoadError, and there is no run. -/
def Obligations.ShortOrMissingFileIsALoadError : Prop :=
  (∀ s : State, loadFile none s = .error .cannotOpen) ∧
  (∀ (bytes : List Byte) (s : State), bytes.length < 2 → loadFile (some bytes) s = .error .missingOrigin) ∧
  (∀ (p : Word) (file : Option (List Byte)) (codes : List Word) (closed : Bool),
    (file = none ∨ ∃ bytes, file = some bytes ∧ bytes.length < 2) →
    ∀ t, launch p file codes closed ≠ .ok t)
end

