-- ==== Sys2Proof/Laws/State.lean ====
section
/-! SUPPORT. One lemma per field per state update, true by rfl, so that no proof unfolds a record update. -/

namespace Sys2Proof.Machine

variable (s : State)

@[simp] theorem State.setReg_regs (r : Reg) (v : Word) : (s.setReg r v).regs = s.regs.write r v := rfl
@[simp] theorem State.setReg_pc (r : Reg) (v : Word) : (s.setReg r v).pc = s.pc := rfl
@[simp] theorem State.setReg_cond (r : Reg) (v : Word) : (s.setReg r v).cond = s.cond := rfl
@[simp] theorem State.setReg_run (r : Reg) (v : Word) : (s.setReg r v).run = s.run := rfl
@[simp] theorem State.setReg_fault (r : Reg) (v : Word) : (s.setReg r v).fault = s.fault := rfl
@[simp] theorem State.setReg_mem (r : Reg) (v : Word) : (s.setReg r v).mem = s.mem := rfl
@[simp] theorem State.setReg_input (r : Reg) (v : Word) : (s.setReg r v).input = s.input := rfl
@[simp] theorem State.setReg_inputClosed (r : Reg) (v : Word) : (s.setReg r v).inputClosed = s.inputClosed := rfl
@[simp] theorem State.setReg_output (r : Reg) (v : Word) : (s.setReg r v).output = s.output := rfl

@[simp] theorem State.memWrite_regs (a v : Word) : (s.memWrite a v).regs = s.regs := rfl
@[simp] theorem State.memWrite_pc (a v : Word) : (s.memWrite a v).pc = s.pc := rfl
@[simp] theorem State.memWrite_cond (a v : Word) : (s.memWrite a v).cond = s.cond := rfl
@[simp] theorem State.memWrite_run (a v : Word) : (s.memWrite a v).run = s.run := rfl
@[simp] theorem State.memWrite_fault (a v : Word) : (s.memWrite a v).fault = s.fault := rfl
@[simp] theorem State.memWrite_mem (a v : Word) : (s.memWrite a v).mem = s.mem.write a v := rfl
@[simp] theorem State.memWrite_input (a v : Word) : (s.memWrite a v).input = s.input := rfl
@[simp] theorem State.memWrite_inputClosed (a v : Word) : (s.memWrite a v).inputClosed = s.inputClosed := rfl
@[simp] theorem State.memWrite_output (a v : Word) : (s.memWrite a v).output = s.output := rfl

@[simp] theorem State.setPc_regs (t : Word) : (s.setPc t).regs = s.regs := rfl
@[simp] theorem State.setPc_pc (t : Word) : (s.setPc t).pc = t := rfl
@[simp] theorem State.setPc_cond (t : Word) : (s.setPc t).cond = s.cond := rfl
@[simp] theorem State.setPc_run (t : Word) : (s.setPc t).run = s.run := rfl
@[simp] theorem State.setPc_fault (t : Word) : (s.setPc t).fault = s.fault := rfl
@[simp] theorem State.setPc_mem (t : Word) : (s.setPc t).mem = s.mem := rfl
@[simp] theorem State.setPc_input (t : Word) : (s.setPc t).input = s.input := rfl
@[simp] theorem State.setPc_inputClosed (t : Word) : (s.setPc t).inputClosed = s.inputClosed := rfl
@[simp] theorem State.setPc_output (t : Word) : (s.setPc t).output = s.output := rfl

@[simp] theorem State.advance_regs : (s.advance).regs = s.regs := rfl
@[simp] theorem State.advance_pc : (s.advance).pc = s.pc + 1 := rfl
@[simp] theorem State.advance_cond : (s.advance).cond = s.cond := rfl
@[simp] theorem State.advance_run : (s.advance).run = s.run := rfl
@[simp] theorem State.advance_fault : (s.advance).fault = s.fault := rfl
@[simp] theorem State.advance_mem : (s.advance).mem = s.mem := rfl
@[simp] theorem State.advance_input : (s.advance).input = s.input := rfl
@[simp] theorem State.advance_inputClosed : (s.advance).inputClosed = s.inputClosed := rfl
@[simp] theorem State.advance_output : (s.advance).output = s.output := rfl

@[simp] theorem State.link_regs : (s.link).regs = s.regs.write .r7 s.pc := rfl
@[simp] theorem State.link_pc : (s.link).pc = s.pc := rfl
@[simp] theorem State.link_cond : (s.link).cond = s.cond := rfl
@[simp] theorem State.link_run : (s.link).run = s.run := rfl
@[simp] theorem State.link_fault : (s.link).fault = s.fault := rfl
@[simp] theorem State.link_mem : (s.link).mem = s.mem := rfl
@[simp] theorem State.link_input : (s.link).input = s.input := rfl
@[simp] theorem State.link_inputClosed : (s.link).inputClosed = s.inputClosed := rfl
@[simp] theorem State.link_output : (s.link).output = s.output := rfl

@[simp] theorem State.raise_regs (c : Cause) : (s.raise c).regs = s.regs := rfl
@[simp] theorem State.raise_pc (c : Cause) : (s.raise c).pc = s.pc := rfl
@[simp] theorem State.raise_cond (c : Cause) : (s.raise c).cond = s.cond := rfl
@[simp] theorem State.raise_run (c : Cause) : (s.raise c).run = false := rfl
@[simp] theorem State.raise_fault (c : Cause) : (s.raise c).fault = some c := rfl
@[simp] theorem State.raise_mem (c : Cause) : (s.raise c).mem = s.mem := rfl
@[simp] theorem State.raise_input (c : Cause) : (s.raise c).input = s.input := rfl
@[simp] theorem State.raise_inputClosed (c : Cause) : (s.raise c).inputClosed = s.inputClosed := rfl
@[simp] theorem State.raise_output (c : Cause) : (s.raise c).output = s.output := rfl

@[simp] theorem State.stop_regs : (s.stop).regs = s.regs := rfl
@[simp] theorem State.stop_pc : (s.stop).pc = s.pc := rfl
@[simp] theorem State.stop_cond : (s.stop).cond = s.cond := rfl
@[simp] theorem State.stop_run : (s.stop).run = false := rfl
@[simp] theorem State.stop_fault : (s.stop).fault = s.fault := rfl
@[simp] theorem State.stop_mem : (s.stop).mem = s.mem := rfl
@[simp] theorem State.stop_input : (s.stop).input = s.input := rfl
@[simp] theorem State.stop_inputClosed : (s.stop).inputClosed = s.inputClosed := rfl
@[simp] theorem State.stop_output : (s.stop).output = s.output := rfl

@[simp] theorem State.emit_regs (cs : List Word) : (s.emit cs).regs = s.regs := rfl
@[simp] theorem State.emit_pc (cs : List Word) : (s.emit cs).pc = s.pc := rfl
@[simp] theorem State.emit_cond (cs : List Word) : (s.emit cs).cond = s.cond := rfl
@[simp] theorem State.emit_run (cs : List Word) : (s.emit cs).run = s.run := rfl
@[simp] theorem State.emit_fault (cs : List Word) : (s.emit cs).fault = s.fault := rfl
@[simp] theorem State.emit_mem (cs : List Word) : (s.emit cs).mem = s.mem := rfl
@[simp] theorem State.emit_input (cs : List Word) : (s.emit cs).input = s.input := rfl
@[simp] theorem State.emit_inputClosed (cs : List Word) : (s.emit cs).inputClosed = s.inputClosed := rfl
@[simp] theorem State.emit_output (cs : List Word) : (s.emit cs).output = s.output ++ cs := rfl

@[simp] theorem State.setcc_regs (v : Word) : (s.setcc v).regs = s.regs := rfl
@[simp] theorem State.setcc_pc (v : Word) : (s.setcc v).pc = s.pc := rfl
@[simp] theorem State.setcc_cond (v : Word) : (s.setcc v).cond = Cond.ofValue v := rfl
@[simp] theorem State.setcc_run (v : Word) : (s.setcc v).run = s.run := rfl
@[simp] theorem State.setcc_fault (v : Word) : (s.setcc v).fault = s.fault := rfl
@[simp] theorem State.setcc_mem (v : Word) : (s.setcc v).mem = s.mem := rfl
@[simp] theorem State.setcc_input (v : Word) : (s.setcc v).input = s.input := rfl
@[simp] theorem State.setcc_inputClosed (v : Word) : (s.setcc v).inputClosed = s.inputClosed := rfl
@[simp] theorem State.setcc_output (v : Word) : (s.setcc v).output = s.output := rfl

@[simp] theorem State.writeResult_regs (r : Reg) (v : Word) : (s.writeResult r v).regs = s.regs.write r v := rfl
@[simp] theorem State.writeResult_pc (r : Reg) (v : Word) : (s.writeResult r v).pc = s.pc := rfl
@[simp] theorem State.writeResult_cond (r : Reg) (v : Word) : (s.writeResult r v).cond = Cond.ofValue v := rfl
@[simp] theorem State.writeResult_run (r : Reg) (v : Word) : (s.writeResult r v).run = s.run := rfl
@[simp] theorem State.writeResult_fault (r : Reg) (v : Word) : (s.writeResult r v).fault = s.fault := rfl
@[simp] theorem State.writeResult_mem (r : Reg) (v : Word) : (s.writeResult r v).mem = s.mem := rfl
@[simp] theorem State.writeResult_input (r : Reg) (v : Word) : (s.writeResult r v).input = s.input := rfl
@[simp] theorem State.writeResult_inputClosed (r : Reg) (v : Word) : (s.writeResult r v).inputClosed = s.inputClosed := rfl
@[simp] theorem State.writeResult_output (r : Reg) (v : Word) : (s.writeResult r v).output = s.output := rfl

@[simp] theorem State.withFetchWord_regs (n w : Nat) : (s.withFetchWord n w).regs = s.regs := rfl
@[simp] theorem State.withFetchWord_pc (n w : Nat) : (s.withFetchWord n w).pc = s.pc := rfl
@[simp] theorem State.withFetchWord_cond (n w : Nat) : (s.withFetchWord n w).cond = s.cond := rfl
@[simp] theorem State.withFetchWord_run (n w : Nat) : (s.withFetchWord n w).run = true := rfl
@[simp] theorem State.withFetchWord_fault (n w : Nat) : (s.withFetchWord n w).fault = s.fault := rfl
@[simp] theorem State.withFetchWord_mem (n w : Nat) : (s.withFetchWord n w).mem = s.mem.write s.pc (tableWord n w) := rfl
@[simp] theorem State.withFetchWord_input (n w : Nat) : (s.withFetchWord n w).input = s.input := rfl
@[simp] theorem State.withFetchWord_inputClosed (n w : Nat) : (s.withFetchWord n w).inputClosed = s.inputClosed := rfl
@[simp] theorem State.withFetchWord_output (n w : Nat) : (s.withFetchWord n w).output = s.output := rfl

@[simp] theorem State.resetAt_regs (p : Word) : (State.resetAt p).regs = ⟨0, 0, 0, 0, 0, 0, 0, 0⟩ := rfl
@[simp] theorem State.resetAt_pc (p : Word) : (State.resetAt p).pc = p := rfl
@[simp] theorem State.resetAt_cond (p : Word) : (State.resetAt p).cond = .zero := rfl
@[simp] theorem State.resetAt_run (p : Word) : (State.resetAt p).run = true := rfl
@[simp] theorem State.resetAt_fault (p : Word) : (State.resetAt p).fault = none := rfl
@[simp] theorem State.resetAt_mem (p : Word) : (State.resetAt p).mem = [] := rfl
@[simp] theorem State.resetAt_input (p : Word) : (State.resetAt p).input = [] := rfl
@[simp] theorem State.resetAt_inputClosed (p : Word) : (State.resetAt p).inputClosed = false := rfl
@[simp] theorem State.resetAt_output (p : Word) : (State.resetAt p).output = [] := rfl

/-- Two states with the same fields are the same state. -/
theorem State.ext_fields {s t : State} (h1 : s.regs = t.regs) (h2 : s.pc = t.pc) (h3 : s.cond = t.cond)
    (h4 : s.run = t.run) (h5 : s.fault = t.fault) (h6 : s.mem = t.mem) (h7 : s.input = t.input)
    (h8 : s.inputClosed = t.inputClosed) (h9 : s.output = t.output) : s = t := by
  cases s
  cases t
  simp_all

end Sys2Proof.Machine
end

