-- ==== Sys2Proof/Laws/Memory.lean ====
section
/-! SUPPORT. The laws of memory: read after write (spec/20_memory.md R51), every operation keeps the canonical
form, and canonical memories that read the same are the same list. -/

namespace Sys2Proof.Machine

/-! ### Lookup -/

theorem Memory.lookup_of_not_listed (m : Memory) (a : Nat) (h : ∀ c ∈ m, c.1 ≠ a) :
    m.lookup a = Memory.unlisted := by
  induction m with
  | nil => rfl
  | cons c m ih =>
    obtain ⟨k, v⟩ := c
    have hk : k ≠ a := h (k, v) (by simp)
    simp only [Memory.lookup, if_neg hk]
    exact ih fun c hc => h c (by simp [hc])

/-- Erasing a cell makes it read as unlisted and leaves every other cell. -/
theorem Memory.lookup_eraseCell (m : Memory) (a b : Nat) :
    (m.eraseCell a).lookup b = if b = a then Memory.unlisted else m.lookup b := by
  induction m with
  | nil => simp [Memory.eraseCell, Memory.lookup]
  | cons c m ih =>
    obtain ⟨k, v⟩ := c
    simp only [Memory.eraseCell] at ih ⊢
    by_cases hk : k = a
    · subst hk
      by_cases hb : b = k
      · subst hb
        simpa using ih
      · have : ¬ k = b := fun h => hb h.symm
        simpa [Memory.lookup, hb, this] using ih
    · by_cases hb : k = b
      · subst hb
        simp [Memory.lookup, hk]
      · simpa [Memory.lookup, hk, hb] using ih

/-- Listing a cell that is not listed yet gives it its word and leaves every other cell. -/
theorem Memory.lookup_insertCell (m : Memory) (a b : Nat) (v : Word) (h : ∀ c ∈ m, c.1 ≠ a) :
    (Memory.insertCell a v m).lookup b = if b = a then v else m.lookup b := by
  induction m with
  | nil =>
    by_cases hb : b = a
    · subst hb
      simp [Memory.insertCell, Memory.lookup]
    · have : ¬ a = b := fun h => hb h.symm
      simp [Memory.insertCell, Memory.lookup, hb, this]
  | cons c m ih =>
    obtain ⟨k, w⟩ := c
    have hk : k ≠ a := h (k, w) (by simp)
    have ih := ih fun c hc => h c (by simp [hc])
    by_cases hlt : a < k
    · by_cases hb : b = a
      · subst hb
        simp [Memory.insertCell, hlt, Memory.lookup]
      · have : ¬ a = b := fun h => hb h.symm
        simp [Memory.insertCell, hlt, Memory.lookup, hb, this]
    · by_cases hkb : k = b
      · subst hkb
        simp [Memory.insertCell, hlt, Memory.lookup, hk]
      · simpa [Memory.insertCell, hlt, Memory.lookup, hkb] using ih

theorem Memory.eraseCell_not_listed (m : Memory) (a : Nat) : ∀ c ∈ m.eraseCell a, c.1 ≠ a := by
  intro c hc
  have := (List.mem_filter.mp hc).2
  simpa using this

/-- A read after a write gives the word written in the cell written, and the old word in every other
(R51). It holds of every list, canonical or not. -/
theorem Memory.read_write (m : Memory) (a b v : Word) :
    (m.write a v).read b = if b = a then v else m.read b := by
  unfold Memory.write Memory.read
  have hab : (b.toNat = a.toNat) ↔ b = a := BitVec.toNat_inj
  split
  · rename_i h
    simp only [Memory.lookup_eraseCell, hab, h]
  · simp only [Memory.lookup_insertCell _ _ _ _ (Memory.eraseCell_not_listed m _), Memory.lookup_eraseCell, hab]
    split <;> rfl

@[simp] theorem Memory.read_write_same (m : Memory) (a v : Word) : (m.write a v).read a = v := by
  simp [Memory.read_write]

theorem Memory.read_write_ne (m : Memory) {a b : Word} (v : Word) (h : b ≠ a) :
    (m.write a v).read b = m.read b := by
  simp [Memory.read_write, h]

@[simp] theorem Memory.read_nil (a : Word) : Memory.read [] a = 0 := rfl

/-! ### The canonical form -/

theorem Memory.wf_nil : Memory.wf [] := by decide

theorem Memory.wf_eraseCell {m : Memory} (h : m.wf) (a : Nat) : (m.eraseCell a).wf :=
  ⟨h.1.sublist List.filter_sublist, fun c hc => h.2 c (List.mem_of_mem_filter hc)⟩

theorem Memory.mem_insertCell {a : Nat} {v : Word} {m : Memory} {c : Nat × Word}
    (h : c ∈ Memory.insertCell a v m) : c = (a, v) ∨ c ∈ m := by
  induction m with
  | nil => simpa [Memory.insertCell] using h
  | cons d m ih =>
    obtain ⟨k, w⟩ := d
    by_cases hlt : a < k
    · simpa [Memory.insertCell, hlt] using h
    · simp only [Memory.insertCell, if_neg hlt, List.mem_cons] at h
      rcases h with h | h
      · exact .inr (by simp [h])
      · rcases ih h with h | h
        · exact .inl h
        · exact .inr (by simp [h])

theorem Memory.wf_insertCell {m : Memory} (h : m.wf) (a : Nat) (v : Word) (ha : a < 65536)
    (hv : v ≠ Memory.unlisted) (hn : ∀ c ∈ m, c.1 ≠ a) : (Memory.insertCell a v m).wf := by
  refine ⟨?_, fun c hc => ?_⟩
  · replace h := h.1
    induction m with
    | nil => simp [Memory.insertCell]
    | cons d m ih =>
      obtain ⟨k, w⟩ := d
      have hm := List.pairwise_cons.mp h
      have hk : k ≠ a := hn (k, w) (by simp)
      by_cases hlt : a < k
      · simp only [Memory.insertCell, if_pos hlt]
        refine List.pairwise_cons.mpr ⟨fun c hc => ?_, h⟩
        rcases List.mem_cons.mp hc with rfl | hc
        · exact hlt
        · exact Nat.lt_trans hlt (hm.1 c hc)
      · simp only [Memory.insertCell, if_neg hlt]
        refine List.pairwise_cons.mpr ⟨fun c hc => ?_, ih (fun c hc => hn c (by simp [hc])) hm.2⟩
        rcases Memory.mem_insertCell hc with rfl | hc
        · show k < a
          omega
        · exact hm.1 c hc
  · rcases Memory.mem_insertCell hc with rfl | hc
    · exact ⟨ha, hv⟩
    · exact h.2 c hc

/-- A write keeps the canonical form. -/
theorem Memory.wf_write {m : Memory} (h : m.wf) (a v : Word) : (m.write a v).wf := by
  unfold Memory.write
  split
  · exact Memory.wf_eraseCell h _
  · rename_i hv
    exact Memory.wf_insertCell (Memory.wf_eraseCell h _) _ _ a.isLt hv (Memory.eraseCell_not_listed m _)

/-- The loader's writes keep the canonical form. -/
theorem Memory.wf_place {m : Memory} (h : m.wf) (a : Nat) (ws : List Word) : (m.place a ws).wf := by
  induction ws generalizing m a with
  | nil => exact h
  | cons w ws ih =>
    unfold Memory.place
    split
    · exact ih (Memory.wf_write h _ _) _
    · exact h

/-- Memory at reset is canonical. -/
theorem State.resetAt_mem_wf (p : Word) : (State.resetAt p).mem.wf := Memory.wf_nil

/-! ### Canonical memories that read the same are the same -/

theorem Memory.lookup_head {k : Nat} {v : Word} {m : Memory} : Memory.lookup ((k, v) :: m) k = v := by
  simp [Memory.lookup]

theorem Memory.lookup_below {k : Nat} {v : Word} {m : Memory} (h : Memory.wf ((k, v) :: m)) {a : Nat}
    (ha : a < k) : Memory.lookup ((k, v) :: m) a = Memory.unlisted := by
  apply Memory.lookup_of_not_listed
  intro c hc
  rcases List.mem_cons.mp hc with rfl | hc
  · exact Nat.ne_of_gt ha
  · have := (List.pairwise_cons.mp h.1).1 c hc
    omega

/-- Equal memories are equal data: canonical lists with the same word in every cell are the same list. -/
theorem Memory.eq_of_lookup_eq {m n : Memory} (hm : m.wf) (hn : n.wf) (h : ∀ a, m.lookup a = n.lookup a) :
    m = n := by
  induction m generalizing n with
  | nil =>
    cases n with
    | nil => rfl
    | cons d n =>
      have h0 := h d.1
      rw [Memory.lookup_head] at h0
      exact absurd h0.symm (hn.2 d (by simp)).2
  | cons c m ih =>
    obtain ⟨k, v⟩ := c
    have hv : v ≠ Memory.unlisted := (hm.2 (k, v) (by simp)).2
    cases n with
    | nil =>
      have h0 := h k
      rw [Memory.lookup_head] at h0
      exact absurd h0 hv
    | cons d n =>
      obtain ⟨l, w⟩ := d
      have hw : w ≠ Memory.unlisted := (hn.2 (l, w) (by simp)).2
      have hkl : k = l := by
        rcases Nat.lt_trichotomy k l with hlt | heq | hgt
        · have h0 := h k
          rw [Memory.lookup_head, Memory.lookup_below hn hlt] at h0
          exact absurd h0 hv
        · exact heq
        · have h0 := h l
          rw [Memory.lookup_head, Memory.lookup_below hm hgt] at h0
          exact absurd h0.symm hw
      subst hkl
      have hvw : v = w := by
        have h0 := h k
        rwa [Memory.lookup_head, Memory.lookup_head] at h0
      subst hvw
      have hm' : Memory.wf m := ⟨(List.pairwise_cons.mp hm.1).2, fun c hc => hm.2 c (by simp [hc])⟩
      have hn' : Memory.wf n := ⟨(List.pairwise_cons.mp hn.1).2, fun c hc => hn.2 c (by simp [hc])⟩
      refine congrArg _ (ih hm' hn' fun a => ?_)
      by_cases ha : k = a
      · subst ha
        rw [Memory.lookup_of_not_listed m k fun c hc => Nat.ne_of_gt ((List.pairwise_cons.mp hm.1).1 c hc),
          Memory.lookup_of_not_listed n k fun c hc => Nat.ne_of_gt ((List.pairwise_cons.mp hn.1).1 c hc)]
      · have h0 := h a
        simpa [Memory.lookup, ha] using h0

/-! ### Memory of the machine -/

variable (s : State)

/-- `State.memRead` after `State.memWrite` (R51). -/
theorem State.memRead_memWrite (a b v : Word) :
    (s.memWrite a v).memRead b = if b = a then v else s.memRead b :=
  Memory.read_write s.mem a b v

@[simp] theorem State.memRead_memWrite_same (a v : Word) : (s.memWrite a v).memRead a = v := by
  simp [State.memRead_memWrite]

@[simp] theorem State.memRead_setReg (a : Word) (r : Reg) (v : Word) : (s.setReg r v).memRead a = s.memRead a := rfl
@[simp] theorem State.memRead_setPc (a t : Word) : (s.setPc t).memRead a = s.memRead a := rfl
@[simp] theorem State.memRead_advance (a : Word) : s.advance.memRead a = s.memRead a := rfl
@[simp] theorem State.memRead_link (a : Word) : s.link.memRead a = s.memRead a := rfl
@[simp] theorem State.memRead_raise (a : Word) (c : Cause) : (s.raise c).memRead a = s.memRead a := rfl
@[simp] theorem State.memRead_stop (a : Word) : s.stop.memRead a = s.memRead a := rfl
@[simp] theorem State.memRead_emit (a : Word) (cs : List Word) : (s.emit cs).memRead a = s.memRead a := rfl
@[simp] theorem State.memRead_setcc (a v : Word) : (s.setcc v).memRead a = s.memRead a := rfl
@[simp] theorem State.memRead_writeResult (a : Word) (r : Reg) (v : Word) :
    (s.writeResult r v).memRead a = s.memRead a := rfl

end Sys2Proof.Machine
end

