-- ==== Sys2Proof/Laws/Regs.lean ====
section
/-! SUPPORT. The laws of the register file: read after write, and what each update leaves of the registers. -/

namespace Sys2Proof.Machine

/-- Reading a register after a write gives the value written there, and the old value elsewhere (R21). -/
theorem RegFile.read_write (f : RegFile) (r q : Reg) (v : Word) :
    (f.write r v).read q = if q = r then v else f.read q := by
  cases r <;> cases q <;> rfl

@[simp] theorem RegFile.read_write_same (f : RegFile) (r : Reg) (v : Word) : (f.write r v).read r = v := by
  simp [RegFile.read_write]

theorem RegFile.read_write_ne (f : RegFile) {r q : Reg} (v : Word) (h : q ≠ r) :
    (f.write r v).read q = f.read q := by
  simp [RegFile.read_write, h]

/-- The later of two writes to one register stands. -/
@[simp] theorem RegFile.write_write_same (f : RegFile) (r : Reg) (u v : Word) :
    (f.write r u).write r v = f.write r v := by
  cases r <;> rfl

/-- Writes to different registers may be taken in either order. -/
theorem RegFile.write_write_comm (f : RegFile) {r q : Reg} (u v : Word) (h : r ≠ q) :
    (f.write r u).write q v = (f.write q v).write r u := by
  cases r <;> cases q <;> first | rfl | exact absurd rfl h

/-- Register files that read the same everywhere are the same. -/
theorem RegFile.ext_read {f g : RegFile} (h : ∀ r, f.read r = g.read r) : f = g := by
  cases f
  cases g
  have h0 := h .r0
  have h1 := h .r1
  have h2 := h .r2
  have h3 := h .r3
  have h4 := h .r4
  have h5 := h .r5
  have h6 := h .r6
  have h7 := h .r7
  simp_all [RegFile.read]

variable (s : State)

/-- `State.reg` after `State.setReg`. -/
theorem State.reg_setReg (r q : Reg) (v : Word) : (s.setReg r v).reg q = if q = r then v else s.reg q :=
  RegFile.read_write s.regs r q v

@[simp] theorem State.reg_setReg_same (r : Reg) (v : Word) : (s.setReg r v).reg r = v := by
  simp [State.reg_setReg]

theorem State.reg_setReg_ne {r q : Reg} (v : Word) (h : q ≠ r) : (s.setReg r v).reg q = s.reg q := by
  simp [State.reg_setReg, h]

/-- Registers after a flag-updating instruction's result. -/
theorem State.reg_writeResult (r q : Reg) (v : Word) :
    (s.writeResult r v).reg q = if q = r then v else s.reg q :=
  State.reg_setReg s r q v

/-- Registers after the link. -/
theorem State.reg_link (q : Reg) : s.link.reg q = if q = .r7 then s.pc else s.reg q :=
  State.reg_setReg s .r7 q s.pc

@[simp] theorem State.reg_memWrite (q : Reg) (a v : Word) : (s.memWrite a v).reg q = s.reg q := rfl
@[simp] theorem State.reg_setPc (q : Reg) (t : Word) : (s.setPc t).reg q = s.reg q := rfl
@[simp] theorem State.reg_advance (q : Reg) : s.advance.reg q = s.reg q := rfl
@[simp] theorem State.reg_raise (q : Reg) (c : Cause) : (s.raise c).reg q = s.reg q := rfl
@[simp] theorem State.reg_stop (q : Reg) : s.stop.reg q = s.reg q := rfl
@[simp] theorem State.reg_emit (q : Reg) (cs : List Word) : (s.emit cs).reg q = s.reg q := rfl
@[simp] theorem State.reg_setcc (q : Reg) (v : Word) : (s.setcc v).reg q = s.reg q := rfl

end Sys2Proof.Machine
end

