-- ==== Sys2Proof/Laws/Console.lean ====
section
/-! SUPPORT. What a console read and a trap routine can do, said once (spec/45_trap.md R181 to R190). -/

namespace Sys2Proof.Machine

/-- Everything a console read can do (R181, R187): the next code is consumed; EOF is delivered and not
consumed; or nothing has been supplied and the read waits. -/
theorem State.consoleRead_cases (s : State) :
    (∃ c rest, s.input = c :: rest ∧ s.consoleRead = some (.code c, { s with input := rest })) ∨
    (s.input = [] ∧ s.inputClosed = true ∧ s.consoleRead = some (.eof, s)) ∨
    (s.input = [] ∧ s.inputClosed = false ∧ s.consoleRead = none) := by
  unfold State.consoleRead
  cases hi : s.input with
  | cons c rest => exact .inl ⟨c, rest, rfl, rfl⟩
  | nil =>
    cases hc : s.inputClosed with
    | true => exact .inr (.inl ⟨rfl, rfl, rfl⟩)
    | false => exact .inr (.inr ⟨rfl, rfl, rfl⟩)

/-- A scan that meets its first zero word `n` cells on delivers the `n` words before it (R184). -/
theorem scanString_to_zero (m : Memory) (n fuel : Nat) (a : Word) (hf : n < fuel)
    (hne : ∀ k, k < n → m.read (a + BitVec.ofNat 16 k) ≠ 0) (hz : m.read (a + BitVec.ofNat 16 n) = 0) :
    scanString m fuel a = some ((List.range n).map fun k => m.read (a + BitVec.ofNat 16 k)) := by
  induction n generalizing fuel a with
  | zero =>
    obtain ⟨fuel, rfl⟩ : ∃ f, fuel = f + 1 := ⟨fuel - 1, by omega⟩
    simpa [scanString] using hz
  | succ n ih =>
    obtain ⟨fuel, rfl⟩ : ∃ f, fuel = f + 1 := ⟨fuel - 1, by omega⟩
    have hshift : ∀ k, a + 1 + BitVec.ofNat 16 k = a + BitVec.ofNat 16 (k + 1) := fun k => by
      rw [BitVec.add_assoc, Nat.add_comm k 1, BitVec.ofNat_add]
      rfl
    have h0 : m.read a ≠ 0 := by simpa using hne 0 (by omega)
    have hrest := ih fuel (a + 1) (by omega) (fun k hk => by rw [hshift]; exact hne (k + 1) (by omega))
      (by rw [hshift]; exact hz)
    simp only [scanString, if_neg h0, hrest, List.range_succ_eq_map, List.map_cons, List.map_map, Option.map_some,
      hshift]
    simp [Function.comp_def]

/-- A scan that delivers nothing met no zero word in the cells it looked at (R187). -/
theorem scanString_none (m : Memory) (fuel : Nat) (a : Word) (h : scanString m fuel a = none) :
    ∀ k, k < fuel → m.read (a + BitVec.ofNat 16 k) ≠ 0 := by
  induction fuel generalizing a with
  | zero => intro k hk; omega
  | succ fuel ih =>
    simp only [scanString] at h
    split at h
    · cases h
    · rename_i h0
      intro k hk
      cases k with
      | zero => simpa using h0
      | succ k =>
        have := ih (a + 1) (by simpa using h) k (by omega)
        rw [BitVec.add_assoc] at this
        rwa [Nat.add_comm k 1, BitVec.ofNat_add]

/-- A scan of a memory with no zero word delivers nothing. -/
theorem scanString_of_no_zero (m : Memory) (fuel : Nat) (a : Word) (h : ∀ b, m.read b ≠ 0) :
    scanString m fuel a = none := by
  induction fuel generalizing a with
  | zero => rfl
  | succ fuel ih => simp only [scanString, if_neg (h a), ih, Option.map_none]

/-- The string at R0 exists unless no cell of memory is zero (R187: the scan ends within 65536 reads). -/
theorem State.string_eq_none_iff (s : State) : s.string = none ↔ ∀ a, s.memRead a ≠ 0 := by
  constructor
  · intro h a
    have hk := scanString_none _ _ _ h (a - s.reg .r0).toNat (a - s.reg .r0).isLt
    rwa [BitVec.ofNat_toNat, BitVec.setWidth_eq, BitVec.add_comm, BitVec.sub_add_cancel] at hk
  · exact fun h => scanString_of_no_zero _ _ _ h

/-- What is left alone by every trap routine that answers a next state: pc, COND, memory, FAULT, the end of the
input, and every register but R0; the output only grows and at most one code is consumed. -/
structure ServeFrame (s t : State) : Prop where
  pc : t.pc = s.pc
  cond : t.cond = s.cond
  mem : t.mem = s.mem
  fault : t.fault = s.fault
  inputClosed : t.inputClosed = s.inputClosed
  reg : ∀ q, q ≠ .r0 → t.reg q = s.reg q
  output : ∃ out, t.output = s.output ++ out
  input : ∃ taken, s.input = taken ++ t.input ∧ taken.length ≤ 1

theorem ServeFrame.emit (s : State) (cs : List Word) : ServeFrame s (s.emit cs) :=
  ⟨rfl, rfl, rfl, rfl, rfl, fun _ _ => rfl, ⟨cs, rfl⟩, ⟨[], rfl, by simp⟩⟩

/-- The frame of every trap routine (R190). -/
theorem serve_frame {r : Service} {s t : State} (h : serve r s = .next t) : ServeFrame s t := by
  cases r with
  | getc =>
    simp only [serve, serveGetc] at h
    rcases s.consoleRead_cases with ⟨c, rest, hi, hr⟩ | ⟨hi, hc, hr⟩ | ⟨hi, hc, hr⟩ <;> rw [hr] at h <;> cases h
    · exact ⟨rfl, rfl, rfl, rfl, rfl, fun q hq => State.reg_setReg_ne _ _ hq, ⟨[], by simp⟩, ⟨[c], by simp [hi], by simp⟩⟩
    · exact ⟨rfl, rfl, rfl, rfl, rfl, fun q hq => State.reg_setReg_ne _ _ hq, ⟨[], by simp⟩, ⟨[], by simp, by simp⟩⟩
  | out =>
    cases h
    exact ServeFrame.emit s _
  | puts =>
    simp only [serve, servePuts] at h
    split at h <;> cases h
    exact ServeFrame.emit s _
  | inp =>
    simp only [serve, serveIn] at h
    rcases (s.emit Config.inPrompt).consoleRead_cases with ⟨c, rest, hi, hr⟩ | ⟨hi, hc, hr⟩ | ⟨hi, hc, hr⟩ <;>
      rw [hr] at h <;> cases h
    · refine ⟨rfl, rfl, rfl, rfl, rfl, fun q hq => State.reg_setReg_ne _ _ hq, ⟨Config.inPrompt ++ [c], ?_⟩,
        ⟨[c], ?_, by simp⟩⟩
      · simp
      · simpa using hi
    · exact ⟨rfl, rfl, rfl, rfl, rfl, fun q hq => State.reg_setReg_ne _ _ hq, ⟨Config.inPrompt, rfl⟩,
        ⟨[], by simp, by simp⟩⟩
  | putsp =>
    simp only [serve, servePutsp] at h
    split at h <;> cases h
    exact ServeFrame.emit s _
  | halt =>
    cases h
    exact ⟨rfl, rfl, rfl, rfl, rfl, fun _ _ => rfl, ⟨Config.haltNotice, rfl⟩, ⟨[], by simp, by simp⟩⟩

/-- A routine that goes on leaves RUN as it was, unless it is HALT. -/
theorem serve_run {r : Service} {s t : State} (h : serve r s = .next t) :
    t.run = if r = .halt then false else s.run := by
  cases r with
  | getc =>
    simp only [serve, serveGetc] at h
    rcases s.consoleRead_cases with ⟨c, rest, hi, hr⟩ | ⟨hi, hc, hr⟩ | ⟨hi, hc, hr⟩ <;> rw [hr] at h <;> cases h <;> rfl
  | out => cases h; rfl
  | puts =>
    simp only [serve, servePuts] at h
    split at h <;> cases h
    rfl
  | inp =>
    simp only [serve, serveIn] at h
    rcases (s.emit Config.inPrompt).consoleRead_cases with ⟨c, rest, hi, hr⟩ | ⟨hi, hc, hr⟩ | ⟨hi, hc, hr⟩ <;>
      rw [hr] at h <;> cases h <;> rfl
  | putsp =>
    simp only [serve, servePutsp] at h
    split at h <;> cases h
    rfl
  | halt => cases h; rfl

/-- Everything TRAP can do (R180): an undefined vector is the fatal stop after the link; a defined one is its
routine on the linked state. -/
theorem execTrap_cases (v : BitVec 8) (s : State) :
    (Service.ofVector v = none ∧ execTrap v s = .next (s.link.raise (.illegalTrapVector s.instrAddr v))) ∨
    (∃ r, Service.ofVector v = some r ∧ execTrap v s = serve r s.link) := by
  unfold execTrap
  cases Service.ofVector v with
  | none => exact .inl ⟨rfl, rfl⟩
  | some r => exact .inr ⟨r, rfl, rfl⟩

end Sys2Proof.Machine
end

