-- ==== Sys2Proof/Laws/Operands.lean ====
section
/-! SUPPORT. What the effective addresses depend on, and how the operations a meaning runs before it computes one
act on them. -/

namespace Sys2Proof.Machine

variable (s : State)

/-- A PC-relative address depends on the program counter alone (R145). -/
theorem State.pcRel_congr {n : Nat} {s t : State} (h : s.pc = t.pc) (off : BitVec n) : s.pcRel off = t.pcRel off := by
  rw [State.pcRel, State.pcRel, h]

/-- A pointer depends on the program counter and memory (R161). -/
theorem State.indirect_congr {s t : State} (hpc : s.pc = t.pc) (hmem : s.mem = t.mem) (off : BitVec 9) :
    s.indirect off = t.indirect off := by
  rw [State.indirect, State.indirect, State.pcRel_congr hpc, State.memRead, State.memRead, hmem]

/-- A base-plus-offset address depends on the base register's contents alone (R162). -/
theorem State.baseOff_congr {s t : State} {base : Reg} (h : s.reg base = t.reg base) (off : BitVec 6) :
    s.baseOff base off = t.baseOff base off := by
  rw [State.baseOff, State.baseOff, h]

@[simp] theorem State.pcRel_advance {n : Nat} (off : BitVec n) : s.advance.pcRel off = s.pc + 1 + sext off := rfl

@[simp] theorem State.pcRel_setReg {n : Nat} (r : Reg) (v : Word) (off : BitVec n) :
    (s.setReg r v).pcRel off = s.pcRel off := rfl

@[simp] theorem State.indirect_setReg (r : Reg) (v : Word) (off : BitVec 9) :
    (s.setReg r v).indirect off = s.indirect off := rfl

theorem State.baseOff_setReg (r base : Reg) (v : Word) (off : BitVec 6) :
    (s.setReg r v).baseOff base off = (if base = r then v else s.reg base) + sext off := by
  rw [State.baseOff, State.reg_setReg]

end Sys2Proof.Machine
end

