-- ==== Sys2Proof/Laws/PerInstr.lean ====
section
/-! SUPPORT. A law made per instruction: the word the encoder writes is of the instruction's own form in the
match and mask table of spec/30_encoding.md R100, and its unused bits are the customary ones (R102). -/

namespace Sys2Proof.Laws.EncodedForm

/-- The encoded word matches the row of the instruction's form, unused bits included. -/
def Statement (i : Instr) : Prop :=
  i.form.holds (encode i) = true ∧ encode i &&& i.form.row.unused = i.form.row.customary

/-- Equality of words bit by bit. -/
theorem eq_of_bits {u v : Word} (h : ∀ k : Fin 16, u.getLsbD k = v.getLsbD k) : u = v :=
  BitVec.eq_of_getLsbD_eq fun k hk => h ⟨k, hk⟩

/-- The statement, once both masked words are compared bit by bit. -/
theorem of_bits {i : Instr}
    (h : ∀ k : Fin 16, (encode i &&& i.form.row.mask).getLsbD k = i.form.row.pattern.getLsbD k ∧
      (encode i &&& i.form.row.unused).getLsbD k = i.form.row.customary.getLsbD k) : Statement i :=
  ⟨by simpa [Form.holds] using eq_of_bits fun k => (h k).1, eq_of_bits fun k => (h k).2⟩

theorem br (n z p : Bool) (off : BitVec 9) : Statement (.br n z p off) := by
  refine of_bits fun k => ?_
  fin_cases k <;>
    simp [encode, Instr.form, Form.row, opcodeAt, fieldAt, Opcode.number]

theorem addReg (dr sr1 sr2 : Reg) : Statement (.addReg dr sr1 sr2) := by
  refine of_bits fun k => ?_
  fin_cases k <;>
    simp [encode, Instr.form, Form.row, opcodeAt, fieldAt, Opcode.number]

theorem addImm (dr sr1 : Reg) (imm5 : BitVec 5) : Statement (.addImm dr sr1 imm5) := by
  refine of_bits fun k => ?_
  fin_cases k <;>
    simp [encode, Instr.form, Form.row, opcodeAt, fieldAt, Opcode.number]

theorem ld (dr : Reg) (off : BitVec 9) : Statement (.ld dr off) := by
  refine of_bits fun k => ?_
  fin_cases k <;>
    simp [encode, Instr.form, Form.row, opcodeAt, fieldAt, Opcode.number]

theorem st (sr : Reg) (off : BitVec 9) : Statement (.st sr off) := by
  refine of_bits fun k => ?_
  fin_cases k <;>
    simp [encode, Instr.form, Form.row, opcodeAt, fieldAt, Opcode.number]

theorem jsrr (baseR : Reg) : Statement (.jsrr baseR) := by
  refine of_bits fun k => ?_
  fin_cases k <;>
    simp [encode, Instr.form, Form.row, opcodeAt, fieldAt, Opcode.number]

theorem jsr (off : BitVec 11) : Statement (.jsr off) := by
  refine of_bits fun k => ?_
  fin_cases k <;>
    simp [encode, Instr.form, Form.row, opcodeAt, fieldAt, Opcode.number]

theorem andReg (dr sr1 sr2 : Reg) : Statement (.andReg dr sr1 sr2) := by
  refine of_bits fun k => ?_
  fin_cases k <;>
    simp [encode, Instr.form, Form.row, opcodeAt, fieldAt, Opcode.number]

theorem andImm (dr sr1 : Reg) (imm5 : BitVec 5) : Statement (.andImm dr sr1 imm5) := by
  refine of_bits fun k => ?_
  fin_cases k <;>
    simp [encode, Instr.form, Form.row, opcodeAt, fieldAt, Opcode.number]

theorem ldr (dr baseR : Reg) (off : BitVec 6) : Statement (.ldr dr baseR off) := by
  refine of_bits fun k => ?_
  fin_cases k <;>
    simp [encode, Instr.form, Form.row, opcodeAt, fieldAt, Opcode.number]

theorem str (sr baseR : Reg) (off : BitVec 6) : Statement (.str sr baseR off) := by
  refine of_bits fun k => ?_
  fin_cases k <;>
    simp [encode, Instr.form, Form.row, opcodeAt, fieldAt, Opcode.number]

theorem rti : Statement (.rti) := by
  exact ⟨rfl, rfl⟩

theorem not (dr sr1 : Reg) : Statement (.not dr sr1) := by
  refine of_bits fun k => ?_
  fin_cases k <;>
    simp [encode, Instr.form, Form.row, opcodeAt, fieldAt, Opcode.number]

theorem ldi (dr : Reg) (off : BitVec 9) : Statement (.ldi dr off) := by
  refine of_bits fun k => ?_
  fin_cases k <;>
    simp [encode, Instr.form, Form.row, opcodeAt, fieldAt, Opcode.number]

theorem sti (sr : Reg) (off : BitVec 9) : Statement (.sti sr off) := by
  refine of_bits fun k => ?_
  fin_cases k <;>
    simp [encode, Instr.form, Form.row, opcodeAt, fieldAt, Opcode.number]

theorem jmp (baseR : Reg) : Statement (.jmp baseR) := by
  refine of_bits fun k => ?_
  fin_cases k <;>
    simp [encode, Instr.form, Form.row, opcodeAt, fieldAt, Opcode.number]

theorem res : Statement (.res) := by
  exact ⟨rfl, rfl⟩

theorem lea (dr : Reg) (off : BitVec 9) : Statement (.lea dr off) := by
  refine of_bits fun k => ?_
  fin_cases k <;>
    simp [encode, Instr.form, Form.row, opcodeAt, fieldAt, Opcode.number]

theorem trap (v : BitVec 8) : Statement (.trap v) := by
  refine of_bits fun k => ?_
  fin_cases k <;>
    simp [encode, Instr.form, Form.row, opcodeAt, fieldAt, Opcode.number]

end Sys2Proof.Laws.EncodedForm
end

