-- ==== Sys2Proof/Laws/Step.lean ====
section
/-! SUPPORT. What one step can do, and what `withFetchWord` makes the next step run. -/

namespace Sys2Proof.Machine

/-- A step that answers a next state ran, with RUN = 1, the decoded instruction on the advanced state. -/
theorem step_next {s t : State} (h : step s = .next t) :
    s.run = true ∧ exec (decode s.fetch) s.advance = .next t := by
  unfold step at h
  split at h
  · exact ⟨by assumption, h⟩
  · cases h

/-- A run that takes its first step goes on from the state after it. -/
theorem runFor_succ_of_next {k : Nat} {s t : State} (h : step s = .next t) : runFor (k + 1) s = runFor k t := by
  simp only [runFor, h]

theorem runFor_succ_of_fault {k : Nat} {s : State} {r : Fault} (h : step s = .fault r) :
    runFor (k + 1) s = .fault r := by
  simp only [runFor, h]

theorem runFor_succ_of_refused {k : Nat} {s : State} {r : Refusal} (h : step s = .refused r) :
    runFor (k + 1) s = .refused r := by
  simp only [runFor, h]

/-- The host's run, by what its first step answers. -/
theorem core_run_succ_of_next (M : Host.Core) {k : Nat} {s t : M.State} (h : M.step s = .next t) :
    M.run (k + 1) s = M.run k t := by
  simp only [Host.Core.run, h]

theorem core_run_succ_of_fault (M : Host.Core) {k : Nat} {s : M.State} {r : M.Fault} (h : M.step s = .fault r) :
    M.run (k + 1) s = .fault r := by
  simp only [Host.Core.run, h]

theorem core_run_succ_of_refused (M : Host.Core) {k : Nat} {s : M.State} {r : M.Refusal}
    (h : M.step s = .refused r) : M.run (k + 1) s = .refused r := by
  simp only [Host.Core.run, h]

/-- `runFor` is the host's run of the machine. -/
theorem runFor_eq_core_run : ∀ (k : Nat) (s : State), runFor k s = Host.Core.run Sys2Proof.core k s
  | 0, _ => rfl
  | k + 1, s => by
    cases h : step s with
    | next t =>
      exact (runFor_succ_of_next h).trans
        ((runFor_eq_core_run k t).trans (core_run_succ_of_next Sys2Proof.core h).symm)
    | fault r =>
      exact (runFor_succ_of_fault h).trans (core_run_succ_of_fault Sys2Proof.core h).symm
    | refused r =>
      exact (runFor_succ_of_refused h).trans (core_run_succ_of_refused Sys2Proof.core h).symm

/-- The word placed is the word fetched. -/
theorem State.fetch_withFetchWord (s : State) (n w : Nat) : (s.withFetchWord n w).fetch = tableWord n w :=
  Memory.read_write_same s.mem s.pc (tableWord n w)

/-- The step after `withFetchWord` runs exactly the instruction placed. -/
theorem step_withFetchWord (s : State) (n w : Nat) :
    step (s.withFetchWord n w) = exec (decode (tableWord n w)) (s.withFetchWord n w).advance := by
  rw [step, State.fetch_withFetchWord]
  simp

/-- In a meaning, the state being the advanced one, `instrAddr` is the address the fetch read (R122, R213). -/
theorem State.instrAddr_advance (s : State) : s.advance.instrAddr = s.pc := by
  simp [State.instrAddr]

end Sys2Proof.Machine
end

