-- ==== Sys2Proof/Tests/Slice0.lean ====
section
/-! SUPPORT. Tests: expected values from the vectors of spec/95_test_vectors.md (V1 to V22), each on one step or one
word; the smoke tests of the well-formedness checks; and for every obligation with hypotheses a concrete state
and operands that meet them, clause by clause. -/

namespace Sys2Proof.Tests

open Machine

/-! ### Helpers -/

/-- The reset state with the word `w` at the start address `a`. -/
def at_ (a w : Word) : State := { State.resetAt a with mem := [(a.toNat, w)] }

/-- The reset state at 0x3000 with the word `w` there. -/
def on (w : Word) : State := at_ 0x3000 w

/-- What `f` reads in the state after one step; none if the step answers no next state. -/
def after {α : Type} (s : State) (f : State → α) : Option α :=
  match step s with
  | .next t => some (f t)
  | _ => none

/-- The fault a step ends in. -/
def stopOf (s : State) : Option Machine.Fault :=
  match step s with
  | .fault r => some r
  | _ => none

/-- What `f` reads in a result that is a next state. -/
def got {α : Type} (r : Result) (f : State → α) : Option α :=
  match r with
  | .next t => some (f t)
  | _ => none

/-- `n` cells from address 0 on that hold 1. -/
@[irreducible] def ones (n : Nat) : Memory := (List.range n).map fun k => (k, 1)

theorem lookup_ones (n a : Nat) : (ones n).lookup a = if a < n then 1 else 0 := by
  have h : ∀ (m b : Nat), Memory.lookup ((List.range' b m).map fun k => (k, (1 : Word))) a =
      if b ≤ a ∧ a < b + m then 1 else 0 := by
    intro m
    induction m with
    | zero =>
      intro b
      have : ¬ (b ≤ a ∧ a < b + 0) := by omega
      simp only [if_neg this]
      rfl
    | succ m ih =>
      intro b
      simp only [List.range'_succ, List.map_cons, Memory.lookup, ih]
      split
      · rw [if_pos (by omega)]
      · by_cases hb : b + 1 ≤ a ∧ a < b + 1 + m
        · rw [if_pos hb, if_pos (by omega)]
        · rw [if_neg hb, if_neg (by omega)]
  have := h n 0
  simpa [ones, List.range_eq_range'] using this

/-! ### Well-formedness: an ill-formed term for each check -/

/-- ADD register with bits 4:3 = 11 (V14); NOT with bits 5:0 = 0 (V14); JMP, JSRR, TRAP, RTI, RES with unused bits
set (V16, V19, V20). -/
theorem test_wordWellFormed_refuses :
    wordWellFormed 0x105A = false ∧ wordWellFormed 0x505A = false ∧ wordWellFormed 0x9040 = false ∧
    wordWellFormed 0xCE87 = false ∧ wordWellFormed 0x4680 = false ∧ wordWellFormed 0xFF20 = false ∧
    wordWellFormed 0x8FFF = false ∧ wordWellFormed 0xDABC = false := by decide

theorem test_wordWellFormed_accepts :
    wordWellFormed 0x1042 = true ∧ wordWellFormed 0x907F = true ∧ wordWellFormed 0xC1C0 = true ∧
    wordWellFormed 0x0000 = true := by decide

/-- V21: an empty file and a file of one byte have no origin. -/
theorem test_imageWellFormed :
    imageWellFormed [] = false ∧ imageWellFormed [0x30] = false ∧ imageWellFormed [0x30, 0x00] = true := by decide

/-! ### Decoding: one word of every constructor, bits written out from the format tables (R87 to R94) -/

theorem test_decode_br : decode 0b0000100000000010 = .br true false false 2 := by decide
theorem test_decode_addReg : decode 0b0001000001000010 = .addReg .r0 .r1 .r2 := by decide
theorem test_decode_addImm : decode 0b0001001010111111 = .addImm .r1 .r2 0b11111 := by decide
theorem test_decode_ld : decode 0b0010001000000010 = .ld .r1 2 := by decide
theorem test_decode_st : decode 0b0011001000000010 = .st .r1 2 := by decide
theorem test_decode_jsrr : decode 0b0100000010000000 = .jsrr .r2 := by decide
theorem test_decode_jsr : decode 0b0100110000000000 = .jsr 0b10000000000 := by decide
theorem test_decode_andReg : decode 0b0101011100000101 = .andReg .r3 .r4 .r5 := by decide
theorem test_decode_andImm : decode 0b0101001010101111 = .andImm .r1 .r2 0b01111 := by decide
theorem test_decode_ldr : decode 0b0110001010000011 = .ldr .r1 .r2 3 := by decide
theorem test_decode_str : decode 0b0111001010111111 = .str .r1 .r2 0b111111 := by decide
theorem test_decode_rti : decode 0b1000000000000000 = .rti := by decide
theorem test_decode_not : decode 0b1001001001111111 = .not .r1 .r1 := by decide
theorem test_decode_ldi : decode 0b1010001000000001 = .ldi .r1 1 := by decide
theorem test_decode_sti : decode 0b1011001000000001 = .sti .r1 1 := by decide
theorem test_decode_jmp : decode 0b1100000111000000 = .jmp .r7 := by decide
theorem test_decode_res : decode 0b1101101010111100 = .res := by decide
theorem test_decode_lea : decode 0b1110111100000000 = .lea .r7 0b100000000 := by decide
theorem test_decode_trap : decode 0b1111000000100101 = .trap 0x25 := by decide

/-- The encoder writes the vectors' words. -/
theorem test_encode :
    encode (.addImm .r1 .r2 0x1F) = 0x12BF ∧ encode (.andReg .r3 .r4 .r5) = 0x5705 ∧
    encode (.br true false false 2) = 0x0802 ∧ encode (.not .r1 .r1) = 0x927F ∧ encode (.jmp .r7) = 0xC1C0 ∧
    encode (.jsr 0x7FF) = 0x4FFF ∧ encode (.str .r1 .r2 0x3F) = 0x72BF ∧ encode (.trap 0x25) = 0xF025 := by decide

/-- A list of one byte holds no instruction; two bytes are one word, the first its high half (R251). -/
theorem test_decodeBytes :
    (match decodeBytes [0xF0] with | .error e => some e | .ok _ => none) = some .truncated ∧
    (match decodeBytes [0xF0, 0x25, 0x99] with | .error _ => none | .ok p => some p) =
      some (.trap 0x25, [0x99]) := by decide

/-- V12: sign extension. -/
theorem test_sext :
    sext (0x10 : BitVec 5) = 0xFFF0 ∧ sext (0x0F : BitVec 5) = 0x000F ∧ sext (0x20 : BitVec 6) = 0xFFE0 ∧
    sext (0x100 : BitVec 9) = 0xFF00 ∧ sext (0x0FF : BitVec 9) = 0x00FF ∧ sext (0x400 : BitVec 11) = 0xFC00 := by
  decide

/-- V13: setcc. -/
theorem test_setcc :
    Cond.ofValue 0 = .zero ∧ Cond.ofValue 1 = .positive ∧ Cond.ofValue 0x7FFF = .positive ∧
    Cond.ofValue 0x8000 = .negative ∧ Cond.ofValue 0xFFFF = .negative := by decide

/-! ### One step of each instruction (V14 to V20) -/

theorem test_add_wraps :
    after (((on 0x1042).setReg .r1 0xFFFF).setReg .r2 1) (fun t => (t.reg .r0, t.cond, t.pc)) =
      some (0, .zero, 0x3001) := by decide

theorem test_add_same_register :
    after ((on 0x1241).setReg .r1 0x4000) (fun t => (t.reg .r1, t.cond)) = some (0x8000, .negative) := by decide

theorem test_addImm_minus_one :
    after ((on 0x12BF).setReg .r2 5) (fun t => (t.reg .r1, t.cond)) = some (4, .positive) := by decide

theorem test_and :
    after (((on 0x5705).setReg .r4 0xA).setReg .r5 6) (fun t => (t.reg .r3, t.cond)) = some (2, .positive) := by
  decide

theorem test_andImm_extends :
    after ((on 0x5030).setReg .r0 0xBEEF) (fun t => (t.reg .r0, t.cond)) = some (0xBEE0, .negative) := by decide

theorem test_not :
    after ((on 0x907F).setReg .r1 0x8000) (fun t => (t.reg .r0, t.cond)) = some (0x7FFF, .positive) := by decide

theorem test_br_taken : after { on 0x0802 with cond := .negative } (fun t => t.pc) = some 0x3003 := by decide

theorem test_br_not_taken : after { on 0x0802 with cond := .positive } (fun t => t.pc) = some 0x3001 := by decide

theorem test_jmp_contents : after ((on 0xCE87).setReg .r2 0x1234) (fun t => t.pc) = some 0x1234 := by decide

theorem test_jsr_wraps :
    after ((at_ 0xFFFF 0x4800).setReg .r7 0x1111) (fun t => (t.reg .r7, t.pc)) = some (0, 0) := by decide

theorem test_jsr_backward : after (on 0x4C00) (fun t => (t.reg .r7, t.pc)) = some (0x3001, 0x2C01) := by decide

theorem test_jsrr : after ((on 0x4080).setReg .r2 0x4000) (fun t => (t.reg .r7, t.pc)) = some (0x3001, 0x4000) := by
  decide

theorem test_jsrr_r7_falls_through :
    after ((on 0x41C0).setReg .r7 0x5000) (fun t => (t.reg .r7, t.pc)) = some (0x3001, 0x3001) := by decide

theorem test_ld : after ((on 0x2202).memWrite 0x3003 0x8001) (fun t => (t.reg .r1, t.cond)) =
    some (0x8001, .negative) := by decide

theorem test_ld_wraps : after ((at_ 0xFFFF 0x2000).memWrite 0 0x42) (fun t => (t.reg .r0, t.pc)) = some (0x42, 0) := by
  decide

theorem test_ldi : after { ((on 0xA201).memWrite 0x3002 0x4000) with cond := .positive }
    (fun t => (t.reg .r1, t.cond)) = some (0, .zero) := by decide

theorem test_ldi_self : after ((on 0xA001).memWrite 0x3002 0x3002) (fun t => t.reg .r0) = some 0x3002 := by decide

theorem test_ldr_same_register :
    after (((on 0x6240).setReg .r1 0x4000).memWrite 0x4000 0xFFFF) (fun t => (t.reg .r1, t.cond)) =
      some (0xFFFF, .negative) := by decide

theorem test_ldr_wraps :
    after (((on 0x60A0).setReg .r2 0x0010).memWrite 0xFFF0 7) (fun t => t.reg .r0) = some 7 := by decide

theorem test_lea_sets_flags :
    after (at_ 0x7FFE 0xE001) (fun t => (t.reg .r0, t.cond, t.pc)) = some (0x8000, .negative, 0x7FFF) := by decide

theorem test_st : after { ((on 0x3202).setReg .r1 0xABCD) with cond := .negative }
    (fun t => (t.memRead 0x3003, t.cond)) = some (0xABCD, .negative) := by decide

theorem test_st_own_cell : after ((on 0x31FF).setReg .r0 0x1234) (fun t => (t.memRead 0x3000, t.pc)) =
    some (0x1234, 0x3001) := by decide

theorem test_sti : after (((on 0xB201).setReg .r1 7).memWrite 0x3002 0x4000)
    (fun t => (t.memRead 0x4000, t.memRead 0x3002)) = some (7, 0x4000) := by decide

theorem test_sti_self : after (((on 0xB001).setReg .r0 7).memWrite 0x3002 0x3002) (fun t => t.memRead 0x3002) =
    some 7 := by decide

theorem test_str : after (((on 0x72BF).setReg .r1 0x1234).setReg .r2 0x4000) (fun t => t.memRead 0x3FFF) =
    some 0x1234 := by decide

theorem test_str_wraps : after (((on 0x7281).setReg .r1 0x77).setReg .r2 0xFFFF) (fun t => t.memRead 0) =
    some 0x77 := by decide

theorem test_getc : after { on 0xF020 with input := [0x41, 0x42] }
    (fun t => (t.reg .r0, t.reg .r7, t.cond, t.input, t.output)) =
    some (0x41, 0x3001, .zero, [0x42], []) := by decide

theorem test_getc_eof : after { on 0xF020 with inputClosed := true } (fun t => (t.reg .r0, t.inputClosed)) =
    some (0xFFFF, true) := by decide

theorem test_out_whole_word : after ((on 0xF021).setReg .r0 0x1234) (fun t => (t.output, t.reg .r7)) =
    some ([0x1234], 0x3001) := by decide

theorem test_puts_wraps :
    after ((((on 0xF022).setReg .r0 0xFFFF).memWrite 0xFFFF 0x41).memWrite 0 0x42) (fun t => (t.output, t.reg .r0)) =
      some ([0x41, 0x42], 0xFFFF) := by decide

/-- V19, with the prompt 003F, 0020. -/
theorem test_in : got (serveIn [0x3F, 0x20] { on 0xF023 with input := [0x79] }) (fun t => (t.reg .r0, t.output)) =
    some (0x79, [0x3F, 0x20, 0x79]) := by decide

theorem test_in_eof : got (serveIn [0x3F, 0x20] { on 0xF023 with inputClosed := true })
    (fun t => (t.reg .r0, t.output)) = some (0xFFFF, [0x3F, 0x20]) := by decide

theorem test_putsp :
    after ((((on 0xF024).setReg .r0 0x3010).memWrite 0x3010 0x6548).memWrite 0x3011 0x21) (fun t => t.output) =
      some [0x48, 0x65, 0x21] := by decide

theorem test_putsp_zero_low_byte :
    after (((on 0xF024).setReg .r0 0x3010).memWrite 0x3010 0x4100) (fun t => t.output) = some [0, 0x41] := by decide

/-- V19, with the notice 0048, 0041, 004C, 0054. -/
theorem test_halt : got (serveHalt [0x48, 0x41, 0x4C, 0x54] (at_ 0x3005 0xF025)) (fun t => (t.output, t.run, t.fault)) =
    some ([0x48, 0x41, 0x4C, 0x54], false, none) := by decide

theorem test_halt_step : after (at_ 0x3005 0xF025) (fun t => (t.reg .r7, t.pc, t.run, t.status)) =
    some (0x3006, 0x3006, false, .halted) := by decide

theorem test_undefined_vector :
    after (at_ 0xFFFF 0xF0FF) (fun t => (t.reg .r7, t.pc, t.run, t.fault)) =
      some (0, 0, false, some (.illegalTrapVector 0xFFFF 0xFF)) := by decide

theorem test_undefined_vector_below :
    after (on 0xF01F) (fun t => t.fault) = some (some (.illegalTrapVector 0x3000 0x1F)) := by decide

theorem test_rti : after { ((at_ 0x3002 0x8000).setReg .r3 9) with cond := .negative }
    (fun t => (t.pc, t.run, t.fault, t.reg .r3, t.cond)) =
    some (0x3003, false, some (.illegalOpcode 0x3002 8), 9, .negative) := by decide

theorem test_res : after (at_ 0xFFFF 0xDABC) (fun t => (t.pc, t.run, t.fault, t.status)) =
    some (0, false, some (.illegalOpcode 0xFFFF 0xD), .faulted) := by decide

/-- V22: a stopped machine takes no step. -/
theorem test_stopped : stopOf { on 0x1042 with run := false } = some .notRunning := by decide

/-- A write of 0x0000 takes the cell off the list. -/
theorem test_write_canonical : ((on 0x1042).memWrite 0x3000 0).mem = [] := by decide

/-! ### The image load (V21) and the host -/

theorem test_load :
    (match loadImage [0x30, 0x02, 0x12, 0x61, 0xF0, 0x25, 0x99] State.reset with
      | .ok t => some (t.mem, t.pc)
      | .error _ => none) = some ([(0x3002, 0x1261), (0x3003, 0xF025)], 0x3000) := by decide

theorem test_load_truncates :
    (match loadImage [0xFF, 0xFF, 0xAA, 0xBB, 0xCC, 0xDD] State.reset with
      | .ok t => some t.mem
      | .error _ => none) = some [(0xFFFF, 0xAABB)] := by decide

theorem test_load_error :
    (match loadImage [0x30] State.reset with | .ok _ => none | .error e => some e) = some .missingOrigin := by decide

/-- The step after `withFetchWord` at reset runs the word placed. -/
theorem test_withFetchWord :
    after (State.reset.withFetchWord 16 0xE002) (fun t => t.reg .r0) = some 0x3003 ∧
    decodeTableWord 16 0xE002 = some (.lea .r0 2) := by decide

/-! ### Witnesses: the hypotheses of every obligation that has any can be met -/

theorem witness_StepRunsTheFetchedInstruction :
    (State.reset.run = true ∧ decode (State.reset.memRead State.reset.pc) = .br false false false 0) ∧
    (State.run { on 0xF025 with run := false } = false ∧
      decode (State.memRead { on 0xF025 with run := false } 0x3000) = .trap 0x25) := by decide

theorem witness_StoppedMachineTakesNoStep : State.run { State.reset with run := false } = false := rfl

theorem witness_StepCompletes_runs :
    State.reset.run = true ∧ ¬ (decode State.reset.fetch).waits State.reset.advance ∧
    ¬ (decode State.reset.fetch).scansForever State.reset.advance := by
  refine ⟨rfl, fun h => ?_, fun h => ?_⟩
  · have := h.1
    revert this
    decide
  · have := h.1
    revert this
    decide

theorem witness_StepCompletes_waits :
    (on 0xF020).run = true ∧ (decode (on 0xF020).fetch).waits (on 0xF020).advance ∧
    (decode (on 0xF023).fetch).waits (on 0xF023).advance :=
  ⟨rfl, ⟨.inl (by decide), rfl, rfl⟩, ⟨.inr (by decide), rfl, rfl⟩⟩

/-- A memory with no zero word, with PUTS (or PUTSP) at 0x3000. -/
def noZero (w : Word) : State := ({ State.reset with mem := ones 65536 } : State).memWrite 0x3000 w

theorem memRead_ones (s : State) (n : Nat) (h : s.mem = ones n) (a : Word) :
    s.memRead a = if a.toNat < n then 1 else 0 := by
  rw [← lookup_ones, ← h]
  rfl

theorem noZero_memRead (w : Word) (hw : w ≠ 0) (a : Word) : (noZero w).memRead a ≠ 0 := by
  rw [noZero, State.memRead_memWrite, memRead_ones _ 65536 rfl, if_pos a.isLt]
  split
  · exact hw
  · decide

theorem noZero_fetch (w : Word) : (noZero w).fetch = w := Memory.read_write_same _ _ _

theorem witness_StepCompletes_scans :
    (noZero 0xF022).run = true ∧ (decode (noZero 0xF022).fetch).scansForever (noZero 0xF022).advance ∧
    (decode (noZero 0xF024).fetch).scansForever (noZero 0xF024).advance := by
  rw [noZero_fetch, noZero_fetch]
  exact ⟨rfl, ⟨.inl (by decide), fun a => State.memRead_advance (noZero 0xF022) a ▸ noZero_memRead 0xF022 (by decide) a⟩,
    ⟨.inr (by decide), fun a => State.memRead_advance (noZero 0xF024) a ▸ noZero_memRead 0xF024 (by decide) a⟩⟩

theorem reset_inv : State.reset.Inv := ⟨Memory.wf_nil, fun h => absurd rfl h⟩

theorem witness_StepKeepsTheInvariant :
    State.reset.Inv ∧ step State.reset = .next State.reset.advance := ⟨reset_inv, rfl⟩

theorem witness_HostMovesKeepTheInvariant :
    State.reset.Inv ∧ loadImage [0x30, 0x00] State.reset = .ok State.reset := ⟨reset_inv, rfl⟩

theorem witness_UnusedBitsAreIgnored :
    Form.holds .addReg 0x1042 = true ∧
    0x1042 ||| (Form.row .addReg).unused = 0x105A ||| (Form.row .addReg).unused := by decide

/-- One word for each clause of the four decoding statements. -/
theorem witness_AluWordsDecodeBySlices :
    ((0x1000 : Word).toNat / 4096 = 1 ∧ (0x1000 : Word).toNat / 32 % 2 = 0) ∧
    ((0x1FFF : Word).toNat / 4096 = 1 ∧ (0x1FFF : Word).toNat / 32 % 2 = 1) ∧
    ((0x5000 : Word).toNat / 4096 = 5 ∧ (0x5000 : Word).toNat / 32 % 2 = 0) ∧
    ((0x5FFF : Word).toNat / 4096 = 5 ∧ (0x5FFF : Word).toNat / 32 % 2 = 1) ∧
    (0x9FFF : Word).toNat / 4096 = 9 := by decide

theorem witness_ControlWordsDecodeBySlices :
    (0x0FFF : Word).toNat / 4096 = 0 ∧ (0xC000 : Word).toNat / 4096 = 12 ∧
    ((0x4800 : Word).toNat / 4096 = 4 ∧ (0x4800 : Word).toNat / 2048 % 2 = 1) ∧
    ((0x47FF : Word).toNat / 4096 = 4 ∧ (0x47FF : Word).toNat / 2048 % 2 = 0) := by decide

theorem witness_LoadStoreWordsDecodeBySlices :
    (0x2000 : Word).toNat / 4096 = 2 ∧ (0xAFFF : Word).toNat / 4096 = 10 ∧ (0x6000 : Word).toNat / 4096 = 6 ∧
    (0xEFFF : Word).toNat / 4096 = 14 ∧ (0x3000 : Word).toNat / 4096 = 3 ∧ (0xBFFF : Word).toNat / 4096 = 11 ∧
    (0x7FFF : Word).toNat / 4096 = 7 := by decide

theorem witness_TrapAndIllegalWordsDecodeBySlices :
    (0xFFFF : Word).toNat / 4096 = 15 ∧ (0x8000 : Word).toNat / 4096 = 8 ∧ (0xDFFF : Word).toNat / 4096 = 13 := by
  decide

theorem witness_SignExtensionArithmetic :
    (5 = 5 ∨ 5 = 6 ∨ 5 = 9 ∨ 5 = 11) ∧ sextNat (0x0F : BitVec 5) = 0x000F ∧ sextNat (0x10 : BitVec 5) = 0xFFF0 ∧
    sextNat (0x3FF : BitVec 11) = 0x03FF ∧ sextNat (0x400 : BitVec 11) = 0xFC00 := by decide

theorem witness_JsrrLinksAndJumpsToTheRegister : Reg.r6 ≠ Reg.r7 := by decide

/-- A JSR #2 at 0x3000 and a JMP R7 at its target. -/
theorem witness_ReturnComesBackAfterTheCall :
    decode ((on 0x4802).memWrite 0x3003 0xC1C0).fetch = .jsr 2 ∧
    after ((on 0x4802).memWrite 0x3003 0xC1C0) (fun t => decode t.fetch) = some (.jmp .r7) := by decide

theorem witness_StoreIsSeenByTheNextFetch :
    after ((on 0x3000).setReg .r0 0xF025) (fun t => t.pc) = some 0x3001 ∧
    (decode ((on 0x3000).setReg .r0 0xF025).fetch).storeAddr ((on 0x3000).setReg .r0 0xF025).advance = some 0x3001 ∧
    (decode ((on 0x3000).setReg .r0 0xF025).fetch).storeReg = some .r0 := by decide

/-- Each clause of GETC and of IN: a code, the end, neither. -/
theorem witness_GetcReadsOneCode_InPromptsReadsAndEchoes :
    State.input { State.reset with input := [0x41] } = 0x41 :: [] ∧
    (State.input { State.reset with inputClosed := true } = [] ∧
      State.inputClosed { State.reset with inputClosed := true } = true) ∧
    (State.reset.input = [] ∧ State.reset.inputClosed = false) := by decide

theorem witness_SuppliedCodeEndsTheWait : exec (.trap 0x20) State.reset = .fault .awaitingInput := rfl

/-- A memory whose one zero word is the last cell. -/
def lastZero : State := { State.reset with mem := ones 65535 }

/-- PUTS and PUTSP at both ends of the range of n: the empty string, and the longest one. -/
theorem witness_PutsWritesTheString_PutspUnpacksTheString :
    State.reset.memRead (State.reset.reg .r0 + BitVec.ofNat 16 0) = 0 ∧
    (∀ k, k < 65535 → lastZero.memRead (lastZero.reg .r0 + BitVec.ofNat 16 k) ≠ 0) ∧
    lastZero.memRead (lastZero.reg .r0 + BitVec.ofNat 16 65535) = 0 := by
  have h0 : lastZero.reg .r0 = 0 := rfl
  refine ⟨rfl, fun k hk => ?_, ?_⟩
  · rw [memRead_ones _ 65535 rfl, h0, show (0 : Word) + BitVec.ofNat 16 k = BitVec.ofNat 16 k from BitVec.zero_add _, BitVec.toNat_ofNat, Nat.mod_eq_of_lt (by omega), if_pos hk]
    decide
  · rw [memRead_ones _ 65535 rfl, h0, if_neg (by decide)]

theorem witness_UndefinedVectorStopsTheMachine :
    ((0x1F : BitVec 8).toNat < 0x20 ∨ 0x25 < (0x1F : BitVec 8).toNat) ∧
    ((0x26 : BitVec 8).toNat < 0x20 ∨ 0x25 < (0x26 : BitVec 8).toNat) ∧ State.reset.advance.pc = 0x3000 + 1 := by
  decide

theorem witness_RtiStopsTheMachine_ResStopsTheMachine :
    (at_ 0xFFFF 0x8000).advance.pc = 0xFFFF + 1 ∧ (at_ 0xFFFF 0xD000).advance.pc = 0xFFFF + 1 := by decide

/-- A flag-updating instruction; one that is none; BR, and another form; a register not written and one not read. -/
theorem witness_CondWritersAndItsOneReader :
    got (exec (.lea .r0 2) State.reset) (fun t => t.reg .r0) = some 0x3002 ∧
    Instr.resultReg (.lea .r0 2) = some .r0 ∧ Instr.form (.lea .r0 2) ≠ .br ∧
    got (exec (.jmp .r0) State.reset) (fun t => t.pc) = some 0 ∧ Instr.resultReg (.jmp .r0) = none := by decide

theorem witness_RegistersReadAndWrittenAsListed :
    got (exec (.addReg .r0 .r1 .r2) State.reset) (fun t => t.cond) = some .zero ∧
    .r3 ∉ Instr.regsWritten (.addReg .r0 .r1 .r2) ∧ .r3 ∉ Instr.regsRead (.addReg .r0 .r1 .r2) ∧
    .r0 ∉ Instr.regsRead (.addReg .r0 .r1 .r2) := by decide

theorem witness_OnlyStoresWriteMemory :
    got (exec (.lea .r0 2) State.reset) (fun t => t.mem) = some [] ∧ Instr.storeAddr State.reset (.lea .r0 2) = none ∧
    got (exec (.st .r0 0x1FF) (State.reset.setReg .r0 7)) (fun t => t.mem) = some [(0x2FFF, 7)] ∧
    Instr.storeAddr (State.reset.setReg .r0 7) (.st .r0 0x1FF) = some 0x2FFF := by decide

theorem witness_OnlyControlTransfersMoveThePc :
    got (exec (.trap 0x21) State.reset) (fun t => t.pc) = some 0x3000 ∧ Instr.form (.trap 0x21) ≠ .br ∧
    Instr.form (.trap 0x21) ≠ .jmp ∧ Instr.form (.trap 0x21) ≠ .jsr ∧ Instr.form (.trap 0x21) ≠ .jsrr := by decide

theorem witness_RunAndFaultWriters :
    (after (on 0xF025) (fun t => t.run) = some false ∧ (decode (on 0xF025).fetch).fatal = false) ∧
    (after (on 0xF026) (fun t => t.run) = some false ∧ (decode (on 0xF026).fetch).fatal = true) ∧
    (after (on 0x8000) (fun t => t.run) = some false ∧ (decode (on 0x8000).fetch).fatal = true) := by decide

theorem witness_ConsoleIsAHistory :
    after (on 0x0000) (fun t => t.output) = some [] ∧ (decode (on 0x0000).fetch).form ≠ .trap := by decide

theorem witness_EndOfInputIsSticky :
    got (runFor 1 { on 0xF020 with inputClosed := true }) (fun t => t.reg .r0) = some 0xFFFF ∧
    State.input { on 0xF020 with inputClosed := true } = [] ∧
    State.inputClosed { on 0xF020 with inputClosed := true } = true := by decide

theorem witness_ZeroMemoryIsASlide : State.reset.run = true ∧ ∀ a, State.reset.memRead a = 0 := ⟨rfl, fun _ => rfl⟩

/-- A file with no origin; an image with no data, one whose data are cut off at the end of memory, and one with an odd byte. -/
theorem witness_LoadPlacesTheImage :
    ([0x30] : List Byte).length < 2 ∧ 2 ≤ ([0x30, 0x00] : List Byte).length ∧ 2 ≤ ([0xFF, 0xFF, 0xAA, 0xBB, 0xCC, 0xDD] : List Byte).length ∧
    2 ≤ ([0x30, 0x00, 0x12] : List Byte).length := by decide

theorem witness_ShortOrMissingFileIsALoadError :
    ([] : List Byte).length < 2 ∧ ([0x30] : List Byte).length < 2 := by decide

end Sys2Proof.Tests
end

section
/-! PROOFS. The statements on the state (spec/10_state.md): reset, and who writes and who reads COND. -/

namespace Sys2Proof.Machine

/-! ### Reset -/

@[simp] theorem State.reg_resetAt (p : Word) (r : Reg) : (State.resetAt p).reg r = 0 := by
  cases r <;> rfl

@[simp] theorem State.memRead_resetAt (p a : Word) : (State.resetAt p).memRead a = 0 :=
  Memory.read_nil a

/-- Settles O1, from what a register, the pc and a cell of the reset state read. -/
theorem resetZeroesRegistersAndMemory : Obligations.ResetZeroesRegistersAndMemory :=
  fun p => ⟨State.reg_resetAt p, State.resetAt_pc p, State.memRead_resetAt p⟩

/-! ### COND: the flags of a value -/

/-- The flags `setcc` gives, read off the ranges of R126: the sign bit is set from 0x8000 on. -/
theorem Cond.ofValue_flagsFrom (v : Word) : FlagsFrom v (Cond.ofValue v) := by
  have hzero : v = 0 ↔ v.toNat = 0 := BitVec.toNat_inj.symm
  have hsign : v.msb = true ↔ 0x8000 ≤ v.toNat := by simp [BitVec.msb_eq_decide]
  simp only [FlagsFrom, Cond.ofValue, hzero, hsign]
  split_ifs <;> simp only [true_iff, false_iff] <;> omega

/-! ### COND: the same state under another flag -/

/-- `s` with the flag `c` in COND: the other COND a meaning is run from to see that it does not read it. -/
def State.withCond (s : State) (c : Cond) : State := { s with cond := c }

/-- A console read neither reads nor writes COND. -/
theorem State.consoleRead_withCond (s : State) (c : Cond) :
    (s.withCond c).consoleRead = s.consoleRead.map fun x => (x.1, x.2.withCond c) := by
  obtain ⟨_, _, hi, -⟩ | ⟨hi, hc, -⟩ | ⟨hi, hc, -⟩ := s.consoleRead_cases
  · simp [consoleRead, withCond, hi]
  · simp [consoleRead, withCond, hi, hc]
  · simp [consoleRead, withCond, hi, hc]

/-- A trap routine does the same under another COND and keeps it (R190). -/
theorem serve_withCond {r : Service} {s t : State} (h : serve r s = .next t) (c : Cond) :
    serve r (s.withCond c) = .next (t.withCond c) := by
  cases r with
  | out | halt => cases h; rfl
  | puts | putsp =>
    have hstring : (s.withCond c).string = s.string := rfl
    simp only [serve, servePuts, servePutsp, hstring] at h ⊢
    split at h <;> cases h
    rfl
  | getc =>
    simp only [serve, serveGetc, State.consoleRead_withCond] at h ⊢
    generalize s.consoleRead = read at h ⊢
    rcases read with _ | ⟨_ | _, u⟩ <;> cases h <;> rfl
  | inp =>
    have hprompt : (s.withCond c).emit Config.inPrompt = (s.emit Config.inPrompt).withCond c := rfl
    simp only [serve, serveIn, hprompt, State.consoleRead_withCond] at h ⊢
    generalize (s.emit Config.inPrompt).consoleRead = read at h ⊢
    rcases read with _ | ⟨_ | _, u⟩ <;> cases h <;> rfl

/-- TRAP does the same under another COND and keeps it, an undefined vector included (R189, R190). -/
theorem execTrap_withCond {v : BitVec 8} {s t : State} (h : execTrap v s = .next t) (c : Cond) :
    execTrap v (s.withCond c) = .next (t.withCond c) := by
  obtain ⟨hv, hs⟩ | ⟨r, hv, hs⟩ := execTrap_cases v s
  · rw [hs] at h
    cases h
    simp only [execTrap, hv]
    rfl
  · rw [hs] at h
    simp only [execTrap, hv]
    exact serve_withCond h c

/-- TRAP keeps COND (R190, R213). -/
theorem execTrap_cond {v : BitVec 8} {s t : State} (h : execTrap v s = .next t) : t.cond = s.cond := by
  obtain ⟨-, hs⟩ | ⟨r, -, hs⟩ := execTrap_cases v s
  · rw [hs] at h
    cases h
    rfl
  · exact (serve_frame (hs.symm.trans h)).cond

/-! ### COND: its writers, its keepers and its reader -/

/-- All a flag-updating instruction does is to write a value to its register and set the flags from it (R28). -/
theorem exec_of_resultReg_some {i : Instr} {dr : Reg} (hi : i.resultReg = some dr) (s : State) :
    ∃ v, exec i s = .next (s.writeResult dr v) := by
  cases i with
  | addReg | addImm | andReg | andImm | not | ld | ldi | ldr | lea => cases hi; exact ⟨_, rfl⟩
  | br | jmp | jsr | jsrr | st | sti | str | trap | rti | res => cases hi

/-- A flag-updating instruction writes COND over, whatever it was (R28). -/
theorem exec_withCond_of_resultReg_some {i : Instr} {dr : Reg} (hi : i.resultReg = some dr) (s : State)
    (c : Cond) : exec i (s.withCond c) = exec i s := by
  cases i with
  | addReg | addImm | andReg | andImm | not | ld | ldi | ldr | lea => rfl
  | br | jmp | jsr | jsrr | st | sti | str | trap | rti | res => cases hi

/-- Every instruction outside the flag-updating set keeps COND (R28). -/
theorem exec_cond_of_resultReg_none {i : Instr} {s t : State} (hi : i.resultReg = none)
    (h : exec i s = .next t) : t.cond = s.cond := by
  cases i with
  | addReg | addImm | andReg | andImm | not | ld | ldi | ldr | lea => cases hi
  | jmp | jsr | jsrr | st | sti | str | rti | res => cases h; rfl
  | br n z p off =>
    cases h
    split <;> rfl
  | trap v => exact execTrap_cond h

/-- An instruction that neither sets the flags nor is BR does the same under another COND and keeps it (R28). -/
theorem exec_withCond_of_resultReg_none {i : Instr} {s t : State} (hi : i.resultReg = none)
    (hbr : i.form ≠ .br) (h : exec i s = .next t) (c : Cond) :
    exec i (s.withCond c) = .next (t.withCond c) := by
  cases i with
  | addReg | addImm | andReg | andImm | not | ld | ldi | ldr | lea => cases hi
  | jmp | jsr | jsrr | st | sti | str | rti | res => cases h; rfl
  | br => exact absurd rfl hbr
  | trap v => exact execTrap_withCond h c

/-- Settles O49, by whether the instruction is of the flag-updating set: its writers answer `writeResult`, and the
others carry COND along unread. -/
theorem condWritersAndItsOneReader : Obligations.CondWritersAndItsOneReader := by
  intro i s t h
  cases hi : i.resultReg with
  | some dr =>
    obtain ⟨v, hv⟩ := exec_of_resultReg_some hi s
    obtain rfl : t = s.writeResult dr v := by simpa [h] using hv
    refine ⟨fun r hr => ?_, nofun, fun _ c => (exec_withCond_of_resultReg_some hi s c).trans h⟩
    cases hr
    simpa [State.reg_writeResult] using Cond.ofValue_flagsFrom v
  | none =>
    exact ⟨nofun, fun _ => exec_cond_of_resultReg_none hi h,
      fun hbr c => exec_withCond_of_resultReg_none hi hbr h c⟩

end Sys2Proof.Machine
end

section
/-! PROOFS. The statement on sign extension (spec/30_encoding.md R95, R97). -/

namespace Sys2Proof.Machine

/-- R95, at every width of at most 16 bits: the field's value, less 2^n modulo 2^16 where its sign bit is set. -/
theorem sext_toNat {n : Nat} (hn : n ≤ 16) (f : BitVec n) : (sext f).toNat = sextNat f := by
  have hpow : 2 ^ n ≤ 2 ^ 16 := Nat.pow_le_pow_right (by decide) hn
  rw [sext, BitVec.toNat_signExtend, BitVec.toNat_setWidth_of_le hn, BitVec.msb_eq_decide, sextNat]
  by_cases hsign : f.toNat < 2 ^ (n - 1)
  · simp [hsign]
  · have hset : 2 ^ (n - 1) ≤ f.toNat := not_lt.mp hsign
    simp only [hset, hsign, decide_true, if_true, if_false]
    omega

/-- The low n bits of an extended n-bit field are the field. -/
theorem setWidth_sext {n : Nat} (hn : n ≤ 16) (f : BitVec n) : (sext f).setWidth n = f := by
  ext i hi
  have hi16 : i < 16 := hi.trans_le hn
  simp [sext, BitVec.getElem_signExtend, hi, hi16]

/-- Settles O18, whose four widths are at most 16. -/
theorem signExtensionArithmetic : Obligations.SignExtensionArithmetic := by
  intro n hwidth f
  have hn : n ≤ 16 := by omega
  exact ⟨sext_toNat hn f, congrArg sext (setWidth_sext hn f)⟩

end Sys2Proof.Machine
end

section
/-! PROOFS. The statements on the instruction cycle (spec/40_cycle.md): the step and the flag function. -/

namespace Sys2Proof.Machine

/-! ### The step, by RUN -/

/-- With RUN = 1 a step executes the fetched word on the advanced state (R120). -/
theorem step_of_run {s : State} (hrun : s.run = true) : step s = exec (decode s.fetch) s.advance :=
  if_pos hrun

/-- With RUN = 0 there is no step (R125). -/
theorem step_of_not_run {s : State} (hrun : s.run = false) : step s = .fault .notRunning := by
  simp [step, hrun]

/-- The increment of R122 wraps from 0xFFFF to 0x0000. -/
theorem State.advance_pc_toNat (s : State) : s.advance.pc.toNat = (s.pc.toNat + 1) % 65536 :=
  BitVec.toNat_add s.pc 1

/-- Settles O3, by RUN: a running machine's step is `exec` on the advanced state, and a stopped one's is a fault. -/
theorem stepRunsTheFetchedInstruction : Obligations.StepRunsTheFetchedInstruction := by
  rintro s i rfl
  constructor
  · intro hrun
    exact ⟨s.advance, step_of_run hrun, s.advance_pc_toNat, rfl⟩
  · intro hrun t hnext
    rw [step_of_not_run hrun] at hnext
    cases hnext

/-! ### The flag function -/

/-- Settles O19: the ranges are those of `Cond.ofValue`, and `setcc` writes COND alone. -/
theorem flagFunctionByRanges : Obligations.FlagFunctionByRanges :=
  fun _ v => ⟨Cond.ofValue_flagsFrom v, rfl⟩

end Sys2Proof.Machine
end

section
/-! PROOFS. The statements on ADD, AND and NOT (spec/41_alu.md): what they share is the write of a result, so each
answers for the value it writes alone. -/

namespace Sys2Proof.Machine

/-! ### The write of a result -/

/-- The whole effect of a flag-updating instruction's write (R28): the register, COND from the value, and the frame. -/
theorem State.wroteResult_writeResult (s : State) (dr : Reg) (v : Word) :
    WroteResult dr v s (s.writeResult dr v) := by
  have hwritten : (s.writeResult dr v).reg dr = v := by simp [State.reg_writeResult]
  have hkept : RegsKept [dr] s (s.writeResult dr v) := fun r hr => by
    simp [State.reg_writeResult, List.ne_of_not_mem_cons hr]
  exact ⟨hwritten, Cond.ofValue_flagsFrom v, hkept, s.writeResult_pc dr v, fun a => s.memRead_writeResult a dr v,
    ⟨s.writeResult_input dr v, s.writeResult_inputClosed dr v, s.writeResult_output dr v⟩,
    ⟨s.writeResult_run dr v, s.writeResult_fault dr v⟩⟩

/-! ### The values, as the spec writes them -/

/-- The 16-bit sum is the sum of the numbers modulo 65536 (R140). -/
theorem ofNat_toNat_add_mod (u v : Word) : BitVec.ofNat 16 ((u.toNat + v.toNat) % 65536) = u + v := by
  apply BitVec.eq_of_toNat_eq
  simp

/-- The complement is the distance to 65535 (R144). -/
theorem ofNat_sub_toNat (u : Word) : BitVec.ofNat 16 (65535 - u.toNat) = ~~~ u := by
  apply BitVec.eq_of_toNat_eq
  rw [BitVec.toNat_not, BitVec.toNat_ofNat]
  omega

/-- Bit k of an extended `imm5`: its own bit below bit 5, its sign bit from there to bit 15 (R95). -/
theorem getLsbD_sext_imm5 (imm5 : BitVec 5) {k : Nat} (hk : k < 16) :
    (sext imm5).getLsbD k = if k < 5 then imm5.getLsbD k else imm5.getLsbD 4 := by
  rw [sext, BitVec.getLsbD_signExtend, BitVec.msb_eq_getLsbD_last]
  simp [hk]

/-- Masking with an extended `imm5`, bit by bit (R143). -/
theorem getLsbD_and_sext_imm5 (u : Word) (imm5 : BitVec 5) (k : Nat) :
    (u &&& sext imm5).getLsbD k = (u.getLsbD k && (if k < 5 then imm5.getLsbD k else imm5.getLsbD 4)) := by
  rw [BitVec.getLsbD_and]
  by_cases hk : k < 16
  · rw [getLsbD_sext_imm5 imm5 hk]
  · simp [BitVec.getLsbD_of_ge u k (not_lt.mp hk)]

/-! ### The five forms -/

/-- Settles O20: the value written is the 16-bit sum of the two sources. -/
theorem addRegisterWritesTheSum : Obligations.AddRegisterWritesTheSum := by
  intro dr sr1 sr2 s
  rw [ofNat_toNat_add_mod]
  exact ⟨s.writeResult dr (s.reg sr1 + s.reg sr2), rfl, s.wroteResult_writeResult dr _⟩

/-- Settles O21: the immediate's number is that of the extended word, and the value written is the 16-bit sum. -/
theorem addImmediateWritesTheSum : Obligations.AddImmediateWritesTheSum := by
  intro dr sr1 imm5 s
  rw [← sext_toNat (by decide : 5 ≤ 16), ofNat_toNat_add_mod]
  exact ⟨s.writeResult dr (s.reg sr1 + sext imm5), rfl, s.wroteResult_writeResult dr _⟩

/-- Settles O22: the value written is the conjunction of the two sources. -/
theorem andRegisterWritesTheConjunction : Obligations.AndRegisterWritesTheConjunction :=
  fun dr sr1 sr2 s => ⟨s.writeResult dr (s.reg sr1 &&& s.reg sr2), s.reg sr1 &&& s.reg sr2, rfl,
    s.wroteResult_writeResult dr _, fun _ => BitVec.getLsbD_and⟩

/-- Settles O23: the value written is the conjunction of the source and the extended immediate. -/
theorem andImmediateWritesTheConjunction : Obligations.AndImmediateWritesTheConjunction :=
  fun dr sr1 imm5 s => ⟨s.writeResult dr (s.reg sr1 &&& sext imm5), s.reg sr1 &&& sext imm5, rfl,
    s.wroteResult_writeResult dr _, getLsbD_and_sext_imm5 (s.reg sr1) imm5⟩

/-- Settles O24: the value written is the complement of the source. -/
theorem notWritesTheComplement : Obligations.NotWritesTheComplement := by
  intro dr sr1 s
  rw [ofNat_sub_toNat]
  exact ⟨s.writeResult dr (~~~ s.reg sr1), rfl, s.wroteResult_writeResult dr _⟩

end Sys2Proof.Machine
end

section
/-! PROOFS. The statements on BR, JMP and JSR (spec/42_control.md): each moves the program counter, JSR after the
link, so the frame is proved once for the move and once for the move after the link. -/

namespace Sys2Proof.Machine

/-! ### The transfer: what it leaves unchanged -/

/-- A transfer moves the program counter and changes nothing else (R154). -/
theorem State.jumped_setPc (s : State) (target : Word) : Jumped target [] s (s.setPc target) :=
  ⟨s.setPc_pc target, fun r _ => s.reg_setPc r target, s.setPc_cond target, fun a => s.memRead_setPc a target,
    ⟨s.setPc_input target, s.setPc_inputClosed target, s.setPc_output target⟩,
    ⟨s.setPc_run target, s.setPc_fault target⟩⟩

/-- The link changes R7 alone, so a transfer after it changes R7 and the program counter (R154). -/
theorem State.jumped_setPc_link (s : State) (target : Word) : Jumped target [.r7] s (s.link.setPc target) := by
  obtain ⟨hpc, -, hcond, hmem, hconsole, hstatus⟩ := s.link.jumped_setPc target
  have hkept : RegsKept [.r7] s (s.link.setPc target) := fun r hr => by
    simp [State.reg_link, List.ne_of_not_mem_cons hr]
  exact ⟨hpc, hkept, hcond, hmem, hconsole, hstatus⟩

/-- The return address is in R7 after a transfer that links (R152). -/
theorem State.reg_r7_setPc_link (s : State) (target : Word) : (s.link.setPc target).reg .r7 = s.pc := by
  simp [State.reg_link]

/-! ### Targets and BR's condition -/

/-- The PC-relative target as the spec writes it, on numbers modulo 65536 (R145, R154). -/
theorem State.ofNat_pc_add_sextNat_mod {n : Nat} (hn : n ≤ 16) (s : State) (off : BitVec n) :
    BitVec.ofNat 16 ((s.pc.toNat + sextNat off) % 65536) = s.pcRel off := by
  rw [← sext_toNat hn, ofNat_toNat_add_mod, State.pcRel]

/-- BR is taken when a set bit matches the active flag (R150). -/
theorem Cond.taken_iff (n z p : Bool) (c : Cond) :
    c.taken n z p = true ↔ (n = true ∧ c = .negative) ∨ (z = true ∧ c = .zero) ∨ (p = true ∧ c = .positive) := by
  cases c <;> simp [Cond.taken]

/-- BR as one transfer: not taken, it goes where the program counter already stands (R150). -/
theorem exec_br (n z p : Bool) (off : BitVec 9) (s : State) :
    exec (.br n z p off) s = .next (s.setPc (if s.cond.taken n z p then s.pcRel off else s.pc)) :=
  congrArg Host.Outcome.next (apply_ite s.setPc (s.cond.taken n z p = true) (s.pcRel off) s.pc).symm

/-! ### The three instructions -/

/-- Settles O25: BR is one transfer, whose target its condition chooses. -/
theorem branchGoesWhereTheFlagSays : Obligations.BranchGoesWhereTheFlagSays := by
  intro n z p off s
  simp only [← Cond.taken_iff, State.ofNat_pc_add_sextNat_mod (by decide : 9 ≤ 16)]
  exact ⟨_, exec_br n z p off s, s.jumped_setPc _⟩

/-- Settles O26: JMP is the transfer to the register's contents. -/
theorem jumpGoesToTheRegister : Obligations.JumpGoesToTheRegister :=
  fun baseR s => ⟨s.setPc (s.reg baseR), rfl, s.jumped_setPc (s.reg baseR)⟩

/-- Settles O27: JSR links and then transfers, and its target rests on the program counter it saved. -/
theorem jsrLinksAndJumps : Obligations.JsrLinksAndJumps := by
  intro off s
  rw [State.ofNat_pc_add_sextNat_mod (by decide : 11 ≤ 16)]
  exact ⟨s.link.setPc (s.pcRel off), rfl, s.reg_r7_setPc_link _, s.jumped_setPc_link _⟩

end Sys2Proof.Machine
end

section
/-! PROOFS. The statements on LD, LDI, LDR and LEA (spec/43_load.md): each writes one result, so what is left to say
is where the value written comes from. -/

namespace Sys2Proof.Machine

/-- The base-plus-offset address as the spec writes it, on numbers modulo 65536 (R162, R172). -/
theorem State.ofNat_reg_add_sextNat_mod (s : State) (base : Reg) (off : BitVec 6) :
    BitVec.ofNat 16 (((s.reg base).toNat + sextNat off) % 65536) = s.baseOff base off := by
  rw [← sext_toNat (by decide : 6 ≤ 16), ofNat_toNat_add_mod, State.baseOff]

/-- Settles O31: the value written is the word at the PC-relative address. -/
theorem ldLoadsPcRelative : Obligations.LdLoadsPcRelative := by
  intro dr off s
  rw [State.ofNat_pc_add_sextNat_mod (by decide : 9 ≤ 16)]
  exact ⟨s.writeResult dr (s.memRead (s.pcRel off)), rfl, s.wroteResult_writeResult dr _⟩

/-- Settles O32: the word at the PC-relative address is the pointer, and the value written is what it points at. -/
theorem ldiLoadsThroughThePointer : Obligations.LdiLoadsThroughThePointer := by
  intro dr off s
  rw [State.ofNat_pc_add_sextNat_mod (by decide : 9 ≤ 16)]
  exact ⟨s.writeResult dr (s.memRead (s.indirect off)), rfl, s.wroteResult_writeResult dr _⟩

/-- Settles O33: the address is formed from the state before the write, so `dr` may be the base register. -/
theorem ldrLoadsBasePlusOffset : Obligations.LdrLoadsBasePlusOffset := by
  intro dr baseR off s
  rw [State.ofNat_reg_add_sextNat_mod]
  exact ⟨s.writeResult dr (s.memRead (s.baseOff baseR off)), rfl, s.wroteResult_writeResult dr _⟩

/-- Settles O34: the value written is the PC-relative address itself. -/
theorem leaWritesTheAddress : Obligations.LeaWritesTheAddress := by
  intro dr off s
  rw [State.ofNat_pc_add_sextNat_mod (by decide : 9 ≤ 16)]
  exact ⟨s.writeResult dr (s.pcRel off), rfl, s.wroteResult_writeResult dr _⟩

end Sys2Proof.Machine
end

section
/-! PROOFS. The statements on ST, STI and STR (spec/44_store.md): each writes one cell of memory, so what is left to
say is where the cell's address comes from. -/

namespace Sys2Proof.Machine

/-- The whole effect of a store's write (R173): the one cell, and the frame. -/
theorem State.stored_memWrite (s : State) (ea v : Word) : Stored ea v s (s.memWrite ea v) := by
  have hkept : MemKeptBut ea s (s.memWrite ea v) := fun a ha => by
    rw [State.memRead_memWrite, if_neg ha]
  exact ⟨s.memRead_memWrite_same ea v, hkept, fun r _ => s.reg_memWrite r ea v, s.memWrite_cond ea v,
    s.memWrite_pc ea v, ⟨s.memWrite_input ea v, s.memWrite_inputClosed ea v, s.memWrite_output ea v⟩,
    ⟨s.memWrite_run ea v, s.memWrite_fault ea v⟩⟩

/-- Settles O35: the cell written is the one at the PC-relative address, the ST's own cell included. -/
theorem stStoresPcRelative : Obligations.StStoresPcRelative := by
  intro sr off s
  rw [State.ofNat_pc_add_sextNat_mod (by decide : 9 ≤ 16)]
  exact ⟨s.memWrite (s.pcRel off) (s.reg sr), rfl, rfl, s.stored_memWrite _ _⟩

/-- Settles O36: the pointer is read from the state before the write, so the cell written may be the pointer's own. -/
theorem stiStoresThroughThePointer : Obligations.StiStoresThroughThePointer := by
  intro sr off s
  rw [State.ofNat_pc_add_sextNat_mod (by decide : 9 ≤ 16)]
  exact ⟨s.memWrite (s.indirect off) (s.reg sr), rfl, rfl, s.stored_memWrite _ _⟩

/-- Settles O37: the cell written is the one at the base register's contents plus the offset. -/
theorem strStoresBasePlusOffset : Obligations.StrStoresBasePlusOffset := by
  intro sr baseR off s
  rw [State.ofNat_reg_add_sextNat_mod]
  exact ⟨s.memWrite (s.baseOff baseR off) (s.reg sr), rfl, rfl, s.stored_memWrite _ _⟩

end Sys2Proof.Machine
end

section
/-! PROOFS. The statements on the image load (spec/70_reset_and_hazards.md): what the big-endian words of the bytes
are, what each cell reads once words are placed, and from the two what the load does. -/

namespace Sys2Proof.Machine

/-! ### The words of the bytes (R251) -/

/-- A big-endian pair of bytes as a number: the first byte counts 256 times (R250). -/
theorem wordOfBytes_toNat (hi lo : Byte) : (wordOfBytes hi lo).toNat = 256 * hi.toNat + lo.toNat := by
  rw [wordOfBytes, BitVec.toNat_append, ← Nat.shiftLeft_add_eq_or_of_lt lo.isLt, Nat.shiftLeft_eq, Nat.mul_comm]

/-- The same number, as the word it is. -/
theorem wordOfBytes_eq_ofNat (hi lo : Byte) :
    wordOfBytes hi lo = BitVec.ofNat 16 (256 * hi.toNat + lo.toNat) := by
  rw [← wordOfBytes_toNat, BitVec.ofNat_toNat, BitVec.setWidth_eq]

/-- A trailing odd byte makes no word (R251). -/
theorem length_wordsOfBytes : ∀ bytes : List Byte, (wordsOfBytes bytes).length = bytes.length / 2
  | [] => rfl
  | [_] => by simp [wordsOfBytes]
  | _ :: _ :: rest => by
    simp only [wordsOfBytes, List.length_cons, length_wordsOfBytes rest]
    omega

/-- The i-th word is made of the bytes 2i and 2i + 1 (R250). -/
theorem getElem?_wordsOfBytes : ∀ {bytes : List Byte} {i : Nat}, i < bytes.length / 2 →
    (wordsOfBytes bytes)[i]? =
      some (BitVec.ofNat 16 (256 * (bytes.getD (2 * i) 0).toNat + (bytes.getD (2 * i + 1) 0).toNat))
  | [], _, hi => absurd hi (Nat.not_lt_zero _)
  | [_], _, hi => absurd hi (by simp)
  | first :: second :: _, 0, _ => congrArg some (wordOfBytes_eq_ofNat first second)
  | _ :: _ :: rest, i + 1, hi => by
    have hrest : i < rest.length / 2 := by
      simp only [List.length_cons] at hi
      omega
    simpa [wordsOfBytes, Nat.mul_add] using getElem?_wordsOfBytes hrest

/-! ### The words placed (R252) -/

/-- The first word goes to the cell `a` where there is one, the others to the cells after it (R250). -/
theorem Memory.place_cons_of_lt {a : Nat} (ha : a < 65536) (m : Memory) (w : Word) (ws : List Word) :
    m.place a (w :: ws) = (m.write (BitVec.ofNat 16 a) w).place (a + 1) ws :=
  if_pos ha

/-- Nothing is placed past the last cell (R252). -/
theorem Memory.place_of_le {a : Nat} (ha : 65536 ≤ a) (m : Memory) : ∀ ws : List Word, m.place a ws = m
  | [] => rfl
  | _ :: _ => if_neg (not_lt.mpr ha)

/-- What a cell reads once the words are placed from `a` on: its word, if there is one for it, and else what it
read before. No cell below `a` is written, as the placement does not wrap. -/
theorem Memory.read_place (m : Memory) (a : Nat) (ws : List Word) (c : Word) :
    (m.place a ws).read c = if a ≤ c.toNat then ws[c.toNat - a]?.getD (m.read c) else m.read c := by
  induction ws generalizing m a with
  | nil => simp [Memory.place]
  | cons w ws ih =>
    obtain ha | ha := Nat.lt_or_ge a 65536
    · have hcell : c = BitVec.ofNat 16 a ↔ c.toNat = a := by
        rw [← BitVec.toNat_inj, BitVec.toNat_ofNat, Nat.mod_eq_of_lt ha]
      rw [Memory.place_cons_of_lt ha, ih, Memory.read_write]
      simp only [hcell]
      obtain hlt | rfl | hgt := Nat.lt_trichotomy c.toNat a
      · simp [show ¬a + 1 ≤ c.toNat by omega, not_le.mpr hlt, hlt.ne]
      · simp
      · have hnext : c.toNat - a = c.toNat - (a + 1) + 1 := by omega
        simp [show a + 1 ≤ c.toNat from hgt, hgt.le, hgt.ne', hnext]
    · rw [Memory.place_of_le ha, if_neg (not_le.mpr (c.isLt.trans_le ha))]

/-- The i-th word reads back from the cell `a + i`, where there is such a cell (R258). -/
theorem Memory.read_place_of_getElem? {ws : List Word} {i : Nat} {w : Word} (hw : ws[i]? = some w) (m : Memory)
    {a : Nat} (ha : a + i < 65536) : (m.place a ws).read (BitVec.ofNat 16 (a + i)) = w := by
  have hcell : (BitVec.ofNat 16 (a + i)).toNat = a + i := Nat.mod_eq_of_lt ha
  simp [Memory.read_place, hcell, hw, -BitVec.toNat_ofNat]

/-- The cells outside those of the words are kept (R250). -/
theorem Memory.read_place_of_outside (m : Memory) {a : Nat} {ws : List Word} {c : Word}
    (hc : c.toNat < a ∨ a + ws.length ≤ c.toNat) : (m.place a ws).read c = m.read c := by
  rw [Memory.read_place]
  obtain hbelow | habove := hc
  · rw [if_neg (not_le.mpr hbelow)]
  · rw [List.getElem?_eq_none (Nat.le_sub_of_add_le' habove), Option.getD_none, ite_self]

/-! ### The load -/

/-- Without an origin word the load fails (R254). -/
theorem loadImage_of_short : ∀ {bytes : List Byte}, bytes.length < 2 → ∀ s : State,
    loadImage bytes s = .error .missingOrigin
  | [], _, _ => rfl
  | [_], _, _ => rfl
  | _ :: _ :: rest, hshort, _ => absurd hshort (by simp)

/-- With an origin word the load succeeds and memory is all it writes (R253). -/
theorem loadImage_cons_cons (hi lo : Byte) (rest : List Byte) (s : State) :
    loadImage (hi :: lo :: rest) s =
      .ok { s with mem := s.mem.place (256 * hi.toNat + lo.toNat) (wordsOfBytes rest) } := by
  rw [← wordOfBytes_toNat]
  rfl

/-- Settles O57: the data words are those of the bytes after the origin, and each cell reads as `Memory.read_place`
says; the two bounds of k are the words there are and the cells there are. -/
theorem loadPlacesTheImage : Obligations.LoadPlacesTheImage := by
  intro bytes s
  refine ⟨fun hshort => loadImage_of_short hshort s, fun hlong => ?_⟩
  obtain ⟨hi, lo, rest, rfl⟩ : ∃ hi lo rest, bytes = hi :: lo :: rest :=
    match bytes, hlong with
    | hi :: lo :: rest, _ => ⟨hi, lo, rest, rfl⟩
  let origin := 256 * hi.toNat + lo.toNat
  let k := min (rest.length / 2) (65536 - origin)
  refine ⟨_, loadImage_cons_cons hi lo rest s, fun i (hik : i < k) => ?_,
    fun a (ha : a.toNat < origin ∨ origin + k ≤ a.toNat) => ?_, rfl⟩
  · rw [Nat.add_comm 2, Nat.add_comm 3]
    have hword : i < rest.length / 2 := by omega
    have hcell : origin + i < 65536 := by omega
    exact Memory.read_place_of_getElem? (getElem?_wordsOfBytes hword) s.mem hcell
  · have houtside : a.toNat < origin ∨ origin + (wordsOfBytes rest).length ≤ a.toNat := by
      rw [length_wordsOfBytes]
      omega
    exact Memory.read_place_of_outside s.mem houtside

/-- Settles O58: the two failures are the loader's, and a launch is the loader on the reset state. -/
theorem shortOrMissingFileIsALoadError : Obligations.ShortOrMissingFileIsALoadError := by
  refine ⟨fun _ => rfl, fun _ s hshort => loadImage_of_short hshort s, ?_⟩
  rintro p _ codes closed (rfl | ⟨bytes, rfl, hshort⟩) t
  · nofun
  · rw [launch, loadFile, loadImage_of_short hshort]
    nofun

end Sys2Proof.Machine
end

section
/-! PROOFS. Everything one instruction can do, said once, and the invariant of a run (spec/10_state.md R36). -/

namespace Sys2Proof.Machine

/-! ### The stores -/

/-- All a store does is to write its register to the cell it addresses (R173). -/
theorem exec_of_storeAddr {i : Instr} {s : State} {ea : Word} (hea : i.storeAddr s = some ea) :
    ∃ sr, i.storeReg = some sr ∧ exec i s = .next (s.memWrite ea (s.reg sr)) := by
  cases i with
  | st sr off | sti sr off | str sr baseR off => cases hea; exact ⟨sr, rfl, rfl⟩
  | br | addReg | addImm | ld | jsrr | jsr | andReg | andImm | ldr | rti | not | ldi | jmp | res | lea | trap =>
    cases hea

/-! ### The inversion of `exec` -/

/-- What the instruction `i` can have made of `s` where it answers a next state. -/
inductive Effect (i : Instr) (s : State) : State → Prop
  /-- One of the seven flag-updating instructions has written its result (R28). -/
  | result {dr : Reg} (v : Word) (hi : i.resultReg = some dr) : Effect i s (s.writeResult dr v)
  /-- A store has written its cell (R173). -/
  | store {ea : Word} {sr : Reg} (hea : i.storeAddr s = some ea) (hsr : i.storeReg = some sr) :
      Effect i s (s.memWrite ea (s.reg sr))
  /-- BR or JMP has moved the program counter, BR perhaps to where it stood (R150, R151). -/
  | jump (target : Word) (hi : i.form = .br ∨ i.form = .jmp) : Effect i s (s.setPc target)
  /-- JSR or JSRR has linked and moved the program counter (R152, R153). -/
  | call (target : Word) (hi : i.form = .jsr ∨ i.form = .jsrr) : Effect i s (s.link.setPc target)
  /-- RTI or RES has stopped the machine (R200, R201). -/
  | illegal (opcode : BitVec 4) (hi : i = .rti ∨ i = .res) :
      Effect i s (s.raise (.illegalOpcode s.instrAddr opcode))
  /-- TRAP with an undefined vector has linked and stopped the machine (R189). -/
  | undefinedVector {v : BitVec 8} (hi : i = .trap v) (hv : Service.ofVector v = none) :
      Effect i s (s.link.raise (.illegalTrapVector s.instrAddr v))
  /-- TRAP has linked and its routine has gone on (R180). -/
  | service {v : BitVec 8} {r : Service} {t : State} (hi : i = .trap v) (hv : Service.ofVector v = some r)
      (hserve : serve r s.link = .next t) : Effect i s t

/-- TRAP's part of the inversion. -/
theorem execTrap_effect {v : BitVec 8} {s t : State} (h : execTrap v s = .next t) : Effect (.trap v) s t := by
  obtain ⟨hv, hs⟩ | ⟨r, hv, hs⟩ := execTrap_cases v s
  · rw [hs] at h
    cases h
    exact .undefinedVector rfl hv
  · exact .service rfl hv (hs.symm.trans h)

/-- An instruction that answers a next state did one of these things. -/
theorem exec_effect {i : Instr} {s t : State} (h : exec i s = .next t) : Effect i s t := by
  cases i with
  | addReg | addImm | andReg | andImm | not | ld | ldi | ldr | lea => cases h; exact .result _ rfl
  | st | sti | str => cases h; exact .store rfl rfl
  | br n z p off =>
    rw [exec_br] at h
    cases h
    exact .jump _ (.inl rfl)
  | jmp => cases h; exact .jump _ (.inr rfl)
  | jsr => cases h; exact .call _ (.inl rfl)
  | jsrr => cases h; exact .call _ (.inr rfl)
  | rti => cases h; exact .illegal _ (.inl rfl)
  | res => cases h; exact .illegal _ (.inr rfl)
  | trap v => exact execTrap_effect h

/-! ### Memory -/

/-- Only a store changes memory, and it writes the one cell it addresses (R52). -/
theorem exec_mem {i : Instr} {s t : State} (h : exec i s = .next t) :
    t.mem = s.mem ∨ ∃ ea v, i.storeAddr s = some ea ∧ t.mem = s.mem.write ea v := by
  cases exec_effect h with
  | store hea => exact .inr ⟨_, _, hea, rfl⟩
  | result | jump | call | illegal | undefinedVector => exact .inl rfl
  | service _ _ hserve => exact .inl (serve_frame hserve).mem

/-- Every instruction keeps memory canonical. -/
theorem exec_mem_wf {i : Instr} {s t : State} (hwf : s.mem.wf) (h : exec i s = .next t) : t.mem.wf := by
  obtain hmem | ⟨ea, v, -, hmem⟩ := exec_mem h
  · rwa [hmem]
  · rw [hmem]
    exact Memory.wf_write hwf ea v

/-- Settles O51: memory is `s.mem`, or `s.mem` with the addressed cell written. -/
theorem onlyStoresWriteMemory : Obligations.OnlyStoresWriteMemory := by
  intro i s t h
  obtain hmem | ⟨ea, v, hea, hmem⟩ := exec_mem h
  · exact ⟨fun _ => hmem, fun _ _ a _ => congrArg (Memory.read · a) hmem⟩
  · refine ⟨fun hnone => absurd (hnone.symm.trans hea) nofun, fun ea' hea' a ha => ?_⟩
    obtain rfl : ea = ea' := Option.some.inj (hea.symm.trans hea')
    rw [State.memRead, hmem, Memory.read_write_ne _ _ ha, State.memRead]

/-! ### RUN and FAULT -/

/-- An instruction keeps FAULT, or it latches a cause and clears RUN (R212). -/
theorem exec_fault {i : Instr} {s t : State} (h : exec i s = .next t) : t.fault = s.fault ∨ t.run = false := by
  cases exec_effect h with
  | illegal | undefinedVector => exact .inr rfl
  | result | store | jump | call => exact .inl rfl
  | service _ _ hserve => exact .inl (serve_frame hserve).fault

/-! ### The invariant -/

/-- A running machine has no cause latched (R36). -/
theorem State.Inv.fault_of_run {s : State} (hinv : s.Inv) (hrun : s.run = true) : s.fault = none := by
  by_contra hfault
  exact absurd (hinv.fault_stopped hfault) (by simp [hrun])

/-- Settles O6: a step runs with RUN = 1, so no cause is latched before it, and one latched by it clears RUN;
memory stays canonical since all that is written to it is a cell. -/
theorem stepKeepsTheInvariant : Obligations.StepKeepsTheInvariant := by
  intro s t hinv hstep
  obtain ⟨hrun, hexec⟩ := step_next hstep
  refine ⟨exec_mem_wf (s := s.advance) hinv.mem_wf hexec, fun hfault => ?_⟩
  obtain hkept | hstopped := exec_fault hexec
  · exact absurd (hkept.trans (hinv.fault_of_run hrun)) hfault
  · exact hstopped

/-- Settles O7: at reset memory is empty and no cause is latched. -/
theorem invariantHoldsAtReset : Obligations.InvariantHoldsAtReset :=
  fun p => ⟨State.resetAt_mem_wf p, fun hfault => absurd (State.resetAt_fault p) hfault⟩

/-- A change of state that keeps RUN, FAULT and the canonical form keeps the invariant. -/
theorem State.Inv.of_status {s t : State} (hinv : s.Inv) (hmem : t.mem.wf) (hstatus : StatusKept s t) : t.Inv := by
  obtain ⟨hrun, hfault⟩ := hstatus
  exact ⟨hmem, fun hcause => hrun.trans (hinv.fault_stopped (hfault ▸ hcause))⟩

/-- A load that succeeds places its words in memory and changes nothing else (R253). -/
theorem loadImage_ok {bytes : List Byte} {s t : State} (h : loadImage bytes s = .ok t) :
    ∃ a ws, t = { s with mem := s.mem.place a ws } := by
  unfold loadImage at h
  split at h <;> cases h
  exact ⟨_, _, rfl⟩

/-- A supplied code reaches the input and nothing else. -/
theorem State.supplyCode_kept (s : State) (c : Word) :
    (s.supplyCode c).mem = s.mem ∧ StatusKept s (s.supplyCode c) := by
  unfold State.supplyCode
  split <;> exact ⟨rfl, rfl, rfl⟩

/-- Settles O8: none of the three moves touches RUN or FAULT, and only the load touches memory, by placing words. -/
theorem hostMovesKeepTheInvariant : Obligations.HostMovesKeepTheInvariant := by
  intro s hinv
  refine ⟨fun bytes t hload => ?_, fun c => ?_, hinv.of_status hinv.mem_wf ⟨rfl, rfl⟩⟩
  · obtain ⟨a, ws, rfl⟩ := loadImage_ok hload
    exact hinv.of_status (Memory.wf_place hinv.mem_wf a ws) ⟨rfl, rfl⟩
  · obtain ⟨hmem, hstatus⟩ := s.supplyCode_kept c
    exact hinv.of_status (hmem ▸ hinv.mem_wf) hstatus

end Sys2Proof.Machine
end

section
/-! PROOFS. The encoder and the decoder (spec/30_encoding.md): a field put in a word and taken out again, the two
round trips, and the match and mask table of the nineteen forms. -/

namespace Sys2Proof

/-! ### Numbers of registers and opcodes -/

@[simp] theorem Reg.ofBits_bits (r : Reg) : Reg.ofBits r.bits = r := by
  cases r <;> rfl

@[simp] theorem Reg.bits_ofBits : ∀ b : BitVec 3, (Reg.ofBits b).bits = b := by decide

@[simp] theorem Opcode.ofNumber_number (o : Opcode) : Opcode.ofNumber o.number = o := by
  cases o <;> rfl

@[simp] theorem Opcode.number_ofNumber : ∀ b : BitVec 4, (Opcode.ofNumber b).number = b := by decide

/-! ### A field put in a word and taken out again -/

/-- Bit k of a word that holds one field. -/
@[simp] theorem getElem_fieldAt {n : Nat} (lo : Nat) (b : BitVec n) (k : Nat) (hk : k < 16) :
    (fieldAt lo b)[k] = (decide (lo ≤ k) && b.getLsbD (k - lo)) := by
  by_cases hlo : lo ≤ k <;> simp [fieldAt, hlo]

/-- The slice a field was put in holds the field. -/
theorem extractLsb'_fieldAt_same {n : Nat} (lo : Nat) (hfits : lo + n ≤ 16) (b : BitVec n) :
    (fieldAt lo b).extractLsb' lo n = b := by
  ext k hk
  simp [show lo + k < 16 by omega, BitVec.getLsbD_eq_getElem hk]

/-- A slice apart from the one a field was put in holds zeros. -/
theorem extractLsb'_fieldAt_apart {n : Nat} (lo start len : Nat) (hfits : start + len ≤ 16)
    (hapart : start + len ≤ lo ∨ lo + n ≤ start) (b : BitVec n) : (fieldAt lo b).extractLsb' start len = 0 := by
  ext k hk
  have hk16 : start + k < 16 := by omega
  obtain hbelow | habove := hapart
  · simp [hk16, show ¬ lo ≤ start + k by omega]
  · simp [hk16, BitVec.getLsbD_of_ge b (start + k - lo) (by omega)]

/-- A slice of a word put back where it stood is the word's bits there. -/
theorem fieldAt_extractLsb' (lo n : Nat) (w : Word) :
    fieldAt lo (w.extractLsb' lo n) = w &&& fieldAt lo (BitVec.allOnes n) := by
  ext k hk
  by_cases hlo : lo ≤ k
  · simp [hlo, Nat.add_sub_cancel' hlo, BitVec.getLsbD_eq_getElem hk, Bool.and_comm]
  · simp [hlo]

/-- A single bit put back where it stood is the word's bit there. -/
theorem fieldAt_ofBool_getLsbD (lo : Nat) (w : Word) :
    fieldAt lo (BitVec.ofBool (w.getLsbD lo)) = w &&& fieldAt lo (BitVec.allOnes 1) := by
  rw [← fieldAt_extractLsb']
  congr 1
  ext k hk
  obtain rfl : k = 0 := by omega
  simp

/-- The opcode put back is the word's high four bits (R81). -/
theorem opcodeAt_opcode (w : Word) : opcodeAt (Field.opcode w) = w &&& fieldAt 12 (BitVec.allOnes 4) := by
  rw [opcodeAt, Field.opcode, Opcode.number_ofNumber, fieldAt_extractLsb']

/-! ### Decoding an encoded instruction -/

/-- The decoder reads back what the encoder wrote: the opcode's slice is the opcode, the flag bit of ADD, AND and JSR
tells their two forms apart, and the slice of each operand meets no other field. -/
theorem decode_encode (i : Instr) : decode (encode i) = i := by
  cases i <;>
    simp [decode, encode, opcodeAt, Field.opcode, Field.dr, Field.sr, Field.sr1, Field.baseR, Field.immFlag,
      Field.sr2, Field.imm5, Field.offset6, Field.pcOffset9, Field.pcOffset11, Field.trapVector, Field.n, Field.z,
      Field.p, Field.jsrMode, BitVec.extractLsb'_or, extractLsb'_fieldAt_same, extractLsb'_fieldAt_apart]

/-! ### Encoding a decoded word -/

/-- Masking with the bits some field uses, where the form's flag bit `z` is clear, masks off the unused ones. -/
theorem and_eq_and_not_unused {w used z unused : Word} (hz : w &&& z = 0) (hmask : used ||| z = ~~~ unused) :
    w &&& used = (w &&& ~~~ unused) ||| 0 := by
  simp [← hmask, BitVec.and_or_distrib_left, hz]

/-- The flag bit of a form whose flag is clear (R100). -/
theorem and_fieldAt_of_getLsbD_false {lo : Nat} {w : Word} (hflag : w.getLsbD lo = false) :
    w &&& fieldAt lo (BitVec.allOnes 1) = 0 := by
  rw [← fieldAt_ofBool_getLsbD, hflag]
  simp [fieldAt]

/-- The flag bit of a form whose flag is set (R100). -/
theorem fieldAt_one_of_getLsbD_true {lo : Nat} {w : Word} (hflag : w.getLsbD lo = true) :
    fieldAt lo 1#1 = w &&& fieldAt lo (BitVec.allOnes 1) := by
  rw [← fieldAt_ofBool_getLsbD, hflag]
  rfl

/-- The word's bits that some field of its form uses are written back, the others as an assembler writes them. -/
theorem encode_decode (w : Word) :
    encode (decode w) = (w &&& ~~~ (decode w).form.row.unused) ||| (decode w).form.row.customary := by
  have hopcode := opcodeAt_opcode w
  unfold decode
  cases hop : Field.opcode w with
  | br | ld | st | ldr | str | ldi | sti | lea | jmp | trap | rti | res =>
    rw [hop] at hopcode
    simp only [encode, Instr.form, hopcode, Field.n, Field.z, Field.p, Field.dr, Field.sr, Field.baseR,
      Field.pcOffset9, Field.offset6, Field.trapVector, Reg.bits_ofBits, fieldAt_ofBool_getLsbD, fieldAt_extractLsb',
      ← BitVec.and_or_distrib_left]
    exact and_eq_and_not_unused BitVec.and_zero (by decide)
  | not =>
    rw [hop] at hopcode
    simp only [encode, Instr.form, hopcode, Field.dr, Field.sr1, Reg.bits_ofBits, fieldAt_extractLsb',
      ← BitVec.and_or_distrib_left]
    refine congrArg (w &&& · ||| Form.not.row.customary) ?_
    decide
  | add | and =>
    rw [hop] at hopcode
    cases hflag : Field.immFlag w with
    | true =>
      simp only [if_true, encode, Instr.form, hopcode, fieldAt_one_of_getLsbD_true hflag, Field.dr, Field.sr1,
        Field.imm5, Reg.bits_ofBits, fieldAt_extractLsb', ← BitVec.and_or_distrib_left]
      exact and_eq_and_not_unused BitVec.and_zero (by decide)
    | false =>
      simp only [Bool.false_eq_true, if_false, encode, Instr.form, hopcode, Field.dr, Field.sr1, Field.sr2,
        Reg.bits_ofBits, fieldAt_extractLsb', ← BitVec.and_or_distrib_left]
      exact and_eq_and_not_unused (and_fieldAt_of_getLsbD_false hflag) (by decide)
  | jsr =>
    rw [hop] at hopcode
    cases hflag : Field.jsrMode w with
    | true =>
      simp only [if_true, encode, Instr.form, hopcode, fieldAt_one_of_getLsbD_true hflag, Field.pcOffset11,
        fieldAt_extractLsb', ← BitVec.and_or_distrib_left]
      exact and_eq_and_not_unused BitVec.and_zero (by decide)
    | false =>
      simp only [Bool.false_eq_true, if_false, encode, Instr.form, hopcode, Field.baseR,
        Reg.bits_ofBits, fieldAt_extractLsb', ← BitVec.and_or_distrib_left]
      exact and_eq_and_not_unused (and_fieldAt_of_getLsbD_false hflag) (by decide)

/-! ### The match and mask table (R100) -/

theorem Form.mem_all (f : Form) : f ∈ Form.all := by
  cases f <;> decide

/-- No bit that tells a form is unused in it. -/
theorem Form.not_unused_and_mask (f : Form) : ~~~ f.row.unused &&& f.row.mask = f.row.mask := by
  cases f <;> rfl

/-- The customary pattern of a form stands in its unused bits. -/
theorem Form.customary_and_mask (f : Form) : f.row.customary &&& f.row.mask = 0#16 := by
  cases f <;> rfl

/-- Two rows that agree in the bits both of them fix are the same row. -/
theorem Form.eq_of_rows_agree : ∀ f ∈ Form.all, ∀ g ∈ Form.all,
    f.row.pattern &&& g.row.mask = g.row.pattern &&& f.row.mask → f = g := by decide

theorem Form.holds_iff (f : Form) (w : Word) : f.holds w = true ↔ w &&& f.row.mask = f.row.pattern := by
  simp [Form.holds]

/-- No word is of two forms. -/
theorem Form.eq_of_holds {f g : Form} {w : Word} (hf : f.holds w = true) (hg : g.holds w = true) : f = g := by
  rw [Form.holds_iff] at hf hg
  apply Form.eq_of_rows_agree f f.mem_all g g.mem_all
  rw [← hf, ← hg, BitVec.and_assoc, BitVec.and_assoc, BitVec.and_comm f.row.mask]

/-- The encoder writes a word of the instruction's own form, with the customary unused bits (R100, R102). -/
theorem encodedForm (i : Instr) : Laws.EncodedForm.Statement i := by
  cases i with
  | br => exact Laws.EncodedForm.br ..
  | addReg => exact Laws.EncodedForm.addReg ..
  | addImm => exact Laws.EncodedForm.addImm ..
  | ld => exact Laws.EncodedForm.ld ..
  | st => exact Laws.EncodedForm.st ..
  | jsrr => exact Laws.EncodedForm.jsrr ..
  | jsr => exact Laws.EncodedForm.jsr ..
  | andReg => exact Laws.EncodedForm.andReg ..
  | andImm => exact Laws.EncodedForm.andImm ..
  | ldr => exact Laws.EncodedForm.ldr ..
  | str => exact Laws.EncodedForm.str ..
  | rti => exact Laws.EncodedForm.rti
  | not => exact Laws.EncodedForm.not ..
  | ldi => exact Laws.EncodedForm.ldi ..
  | sti => exact Laws.EncodedForm.sti ..
  | jmp => exact Laws.EncodedForm.jmp ..
  | res => exact Laws.EncodedForm.res
  | lea => exact Laws.EncodedForm.lea ..
  | trap => exact Laws.EncodedForm.trap ..

/-- A word is of the form of the instruction it decodes to: encoding that instruction restores every bit the form
fixes, and the encoded word is of the form. -/
theorem form_decode_holds (w : Word) : (decode w).form.holds w = true := by
  have hencoded := (Form.holds_iff _ _).mp (encodedForm (decode w)).1
  have hkept : encode (decode w) &&& (decode w).form.row.mask = w &&& (decode w).form.row.mask := by
    rw [encode_decode, BitVec.and_or_distrib_right, BitVec.and_assoc, Form.not_unused_and_mask,
      Form.customary_and_mask, BitVec.or_zero]
  rwa [Form.holds_iff, ← hkept]

/-- A word is of the one form it decodes to (R100). -/
theorem Form.holds_iff_form_decode (f : Form) (w : Word) : f.holds w = true ↔ (decode w).form = f := by
  refine ⟨Form.eq_of_holds (form_decode_holds w), ?_⟩
  rintro rfl
  exact form_decode_holds w

/-- Well-formedness of a word speaks of its own form alone (R102). -/
theorem wordWellFormed_iff (w : Word) :
    wordWellFormed w = true ↔ w &&& (decode w).form.row.unused = (decode w).form.row.customary := by
  have hholds : ∀ f : Form, f.holds w = decide ((decode w).form = f) := fun f =>
    Bool.eq_iff_iff.mpr (by simp [f.holds_iff_form_decode w])
  simp [wordWellFormed, Form.mem_all, hholds, ← imp_iff_not_or]

/-- Whether a word is of a form does not rest on the form's unused bits. -/
theorem Form.holds_of_used_bits {f : Form} {w w' : Word} (hused : w &&& ~~~ f.row.unused = w' &&& ~~~ f.row.unused)
    (hw : f.holds w = true) : f.holds w' = true := by
  rw [Form.holds_iff] at hw ⊢
  rw [← hw, ← f.not_unused_and_mask, ← BitVec.and_assoc, ← BitVec.and_assoc, hused]

/-! ### The statements on the whole encoding -/

/-- Settles O9. -/
theorem decodeOfEncodeIsTheInstruction : Obligations.DecodeOfEncodeIsTheInstruction :=
  decode_encode

/-- Settles O10: the encoder writes the used bits back, so it gives the word itself exactly when the unused bits are
those it writes. -/
theorem encodeOfDecodeIsTheCustomaryWord : Obligations.EncodeOfDecodeIsTheCustomaryWord := by
  intro w
  rw [wordWellFormed_iff]
  constructor
  · intro hback
    have hunused := (encodedForm (decode w)).2
    rwa [hback] at hunused
  · intro hunused
    rw [encode_decode, ← hunused, ← BitVec.and_or_distrib_left, BitVec.or_comm, BitVec.or_not_self, BitVec.and_allOnes]

/-- Settles O11: the table has the nineteen rows, and a word is of the one form it decodes to. -/
theorem everyWordIsExactlyOneForm : Obligations.EveryWordIsExactlyOneForm :=
  ⟨rfl, fun w f => ⟨f.mem_all, f.holds_iff_form_decode w⟩⟩

/-- Settles O12: the two words are of the same form and agree in its used bits, so they are encoded back alike, and
the encoder gives no two instructions the same word. -/
theorem unusedBitsAreIgnored : Obligations.UnusedBitsAreIgnored := by
  intro f w w' hw hagree
  have hused : w &&& ~~~ f.row.unused = w' &&& ~~~ f.row.unused := by
    simpa [BitVec.and_or_distrib_right] using congrArg (· &&& ~~~ f.row.unused) hagree
  have hform := (f.holds_iff_form_decode w).mp hw
  have hform' := (f.holds_iff_form_decode w').mp (Form.holds_of_used_bits hused hw)
  have hencode : encode (decode w) = encode (decode w') := by
    rw [encode_decode, encode_decode, hform, hform', hused]
  rw [← decode_encode (decode w), hencode, decode_encode]

end Sys2Proof
end

section
/-! PROOFS. The fields of a word as the spec's arithmetic writes them (spec/30_encoding.md R84): division and
remainder by powers of two. -/

namespace Sys2Proof

open Machine

/-! ### The slices -/

/-- A slice of a word is a quotient of its number, cut to the slice's width. -/
theorem extractLsb'_eq_ofNat_div (w : Word) (lo n : Nat) :
    w.extractLsb' lo n = BitVec.ofNat n (w.toNat / 2 ^ lo) := by
  rw [BitVec.extractLsb', Nat.shiftRight_eq_div_pow]

/-- A slice from bit 0 on is the word's number, cut to the slice's width. -/
theorem extractLsb'_zero_eq_ofNat (w : Word) (n : Nat) : w.extractLsb' 0 n = BitVec.ofNat n w.toNat := by
  rw [extractLsb'_eq_ofNat_div, Nat.pow_zero, Nat.div_one]

/-- A bit of a word is the parity of a quotient. -/
theorem getLsbD_eq_div_mod (w : Word) (lo : Nat) : w.getLsbD lo = (w.toNat / 2 ^ lo % 2 == 1) :=
  Nat.testBit_eq_decide_div_mod_eq

/-! ### The fields -/

/-- A register field names the register of its three bits. -/
theorem ofBits_extractLsb' (w : Word) (lo : Nat) : Reg.ofBits (w.extractLsb' lo 3) = regAt w lo :=
  congrArg Reg.ofBits (extractLsb'_eq_ofNat_div w lo 3)

@[simp] theorem Field.dr_eq (w : Word) : Field.dr w = regAt w 9 := ofBits_extractLsb' w 9
@[simp] theorem Field.sr_eq (w : Word) : Field.sr w = regAt w 9 := ofBits_extractLsb' w 9
@[simp] theorem Field.sr1_eq (w : Word) : Field.sr1 w = regAt w 6 := ofBits_extractLsb' w 6
@[simp] theorem Field.baseR_eq (w : Word) : Field.baseR w = regAt w 6 := ofBits_extractLsb' w 6
@[simp] theorem Field.sr2_eq (w : Word) : Field.sr2 w = regAt w 0 := ofBits_extractLsb' w 0
@[simp] theorem Field.n_eq (w : Word) : Field.n w = (w.toNat / 2048 % 2 == 1) := getLsbD_eq_div_mod w 11
@[simp] theorem Field.z_eq (w : Word) : Field.z w = (w.toNat / 1024 % 2 == 1) := getLsbD_eq_div_mod w 10
@[simp] theorem Field.p_eq (w : Word) : Field.p w = (w.toNat / 512 % 2 == 1) := getLsbD_eq_div_mod w 9
@[simp] theorem Field.jsrMode_eq (w : Word) : Field.jsrMode w = (w.toNat / 2048 % 2 == 1) := getLsbD_eq_div_mod w 11
@[simp] theorem Field.immFlag_eq (w : Word) : Field.immFlag w = (w.toNat / 32 % 2 == 1) := getLsbD_eq_div_mod w 5
@[simp] theorem Field.imm5_eq (w : Word) : Field.imm5 w = BitVec.ofNat 5 w.toNat := extractLsb'_zero_eq_ofNat w 5
@[simp] theorem Field.offset6_eq (w : Word) : Field.offset6 w = BitVec.ofNat 6 w.toNat := extractLsb'_zero_eq_ofNat w 6
@[simp] theorem Field.pcOffset9_eq (w : Word) : Field.pcOffset9 w = BitVec.ofNat 9 w.toNat :=
  extractLsb'_zero_eq_ofNat w 9
@[simp] theorem Field.pcOffset11_eq (w : Word) : Field.pcOffset11 w = BitVec.ofNat 11 w.toNat :=
  extractLsb'_zero_eq_ofNat w 11
@[simp] theorem Field.trapVector_eq (w : Word) : Field.trapVector w = BitVec.ofNat 8 w.toNat :=
  extractLsb'_zero_eq_ofNat w 8

/-- The opcode is the one whose number the word's high four bits are (R81). -/
theorem Field.opcode_of_div {w : Word} (o : Opcode) (hnumber : w.toNat / 4096 = o.number.toNat) :
    Field.opcode w = o := by
  rw [Field.opcode, extractLsb'_eq_ofNat_div, show 2 ^ 12 = 4096 from rfl, hnumber, BitVec.ofNat_toNat,
    BitVec.setWidth_eq, Opcode.ofNumber_number]

/-! ### The statements on the decoder -/

/-- Settles O13: the opcode selects the instruction, for ADD and AND together with bit 5, and the fields are the
slices. -/
theorem aluWordsDecodeBySlices : Obligations.AluWordsDecodeBySlices := by
  intro w
  refine ⟨fun hop hflag => ?_, fun hop hflag => ?_, fun hop hflag => ?_, fun hop hflag => ?_, fun hop => ?_⟩
  · simp [decode, Field.opcode_of_div .add hop, hflag]
  · simp [decode, Field.opcode_of_div .add hop, hflag]
  · simp [decode, Field.opcode_of_div .and hop, hflag]
  · simp [decode, Field.opcode_of_div .and hop, hflag]
  · simp [decode, Field.opcode_of_div .not hop]

/-- Settles O14: the opcode selects the instruction, for JSR and JSRR together with bit 11. -/
theorem controlWordsDecodeBySlices : Obligations.ControlWordsDecodeBySlices := by
  intro w
  refine ⟨fun hop => ?_, fun hop => ?_, fun hop hflag => ?_, fun hop hflag => ?_⟩
  · simp [decode, Field.opcode_of_div .br hop]
  · simp [decode, Field.opcode_of_div .jmp hop]
  · simp [decode, Field.opcode_of_div .jsr hop, hflag]
  · simp [decode, Field.opcode_of_div .jsr hop, hflag]

/-- Settles O15: the opcode alone selects the instruction. -/
theorem loadStoreWordsDecodeBySlices : Obligations.LoadStoreWordsDecodeBySlices := by
  intro w
  refine ⟨fun hop => ?_, fun hop => ?_, fun hop => ?_, fun hop => ?_, fun hop => ?_, fun hop => ?_, fun hop => ?_⟩
  · simp [decode, Field.opcode_of_div .ld hop]
  · simp [decode, Field.opcode_of_div .ldi hop]
  · simp [decode, Field.opcode_of_div .ldr hop]
  · simp [decode, Field.opcode_of_div .lea hop]
  · simp [decode, Field.opcode_of_div .st hop]
  · simp [decode, Field.opcode_of_div .sti hop]
  · simp [decode, Field.opcode_of_div .str hop]

/-- Settles O16: the opcode alone selects the instruction, and RTI and RES have no field. -/
theorem trapAndIllegalWordsDecodeBySlices : Obligations.TrapAndIllegalWordsDecodeBySlices := by
  intro w
  refine ⟨fun hop => ?_, fun hop => ?_, fun hop => ?_⟩
  · simp [decode, Field.opcode_of_div .trap hop]
  · simp [decode, Field.opcode_of_div .rti hop]
  · simp [decode, Field.opcode_of_div .res hop]

/-- Settles O17, by running the decoder on the twelve words. -/
theorem sampleWordsDecode : Obligations.SampleWordsDecode := by
  unfold Obligations.SampleWordsDecode
  decide

end Sys2Proof
end

section
/-! PROOFS. The statements on TRAP and on the illegal opcodes (spec/45_trap.md, spec/46_illegal.md): each routine is
computed on the linked state, and its frame is the one `serve_frame` gives every routine. -/

namespace Sys2Proof.Machine

/-! ### The link -/

@[simp] theorem State.reg_link_r7 (s : State) : s.link.reg .r7 = s.pc :=
  State.reg_setReg_same s .r7 s.pc

/-! ### Vectors -/

/-- The vector that selects a routine (R180). -/
def Service.vector : Service → BitVec 8
  | .getc => 0x20
  | .out => 0x21
  | .puts => 0x22
  | .inp => 0x23
  | .putsp => 0x24
  | .halt => 0x25

/-- A routine has one vector. -/
theorem Service.ofVector_eq_some_iff (v : BitVec 8) (r : Service) : Service.ofVector v = some r ↔ v = r.vector := by
  constructor
  · intro h
    unfold Service.ofVector at h
    split at h <;> cases h <;> exact BitVec.eq_of_toNat_eq ‹_›
  · rintro rfl
    cases r <;> rfl

/-- The undefined vectors are those outside 0x20 to 0x25 (R189). -/
theorem Service.ofVector_eq_none_iff (v : BitVec 8) :
    Service.ofVector v = none ↔ v.toNat < 0x20 ∨ 0x25 < v.toNat := by
  unfold Service.ofVector
  split <;> simp only [reduceCtorEq, true_iff, false_iff, imp_false] at * <;> omega

/-- TRAP with a routine's vector is the routine after the link (R180). -/
theorem exec_trap_vector (r : Service) (s : State) : exec (.trap r.vector) s = serve r s.link := by
  cases r <;> rfl

/-- TRAP with an undefined vector is the fatal stop after the link (R189). -/
theorem exec_trap_of_undefined {v : BitVec 8} (hv : v.toNat < 0x20 ∨ 0x25 < v.toNat) (s : State) :
    exec (.trap v) s = .next (s.link.raise (.illegalTrapVector s.instrAddr v)) := by
  obtain ⟨-, h⟩ | ⟨r, hr, -⟩ := execTrap_cases v s
  · exact h
  · cases hr.symm.trans ((Service.ofVector_eq_none_iff v).mpr hv)

/-! ### Console reads -/

theorem State.consoleRead_of_code {s : State} {c : Word} {rest : List Word} (hinput : s.input = c :: rest) :
    s.consoleRead = some (.code c, { s with input := rest }) := by
  simp [State.consoleRead, hinput]

theorem State.consoleRead_of_eof {s : State} (hinput : s.input = []) (hclosed : s.inputClosed = true) :
    s.consoleRead = some (.eof, s) := by
  simp [State.consoleRead, hinput, hclosed]

theorem State.consoleRead_of_nothing {s : State} (hinput : s.input = []) (hopen : s.inputClosed = false) :
    s.consoleRead = none := by
  simp [State.consoleRead, hinput, hopen]

/-! ### The frame of a routine -/

/-- A routine that goes on, HALT apart, leaves everything else of the state before the TRAP. -/
theorem served_of_serve {r : Service} {s t : State} {changed : List Reg} {out : List Word}
    (hserve : serve r s.link = .next t) (hr : r ≠ .halt) (hr7 : .r7 ∈ changed)
    (hr0 : .r0 ∈ changed ∨ t.reg .r0 = s.reg .r0) (hout : t.output = s.output ++ out) : Served changed out s t := by
  have hframe := serve_frame hserve
  have hregs : RegsKept changed s t := fun q hq => by
    by_cases hq0 : q = .r0
    · subst hq0
      exact hr0.resolve_left hq
    · have hq7 : q ≠ .r7 := fun h => hq (h ▸ hr7)
      rw [hframe.reg q hq0, State.reg_link, if_neg hq7]
  have hlink : t.reg .r7 = s.pc := by
    rw [hframe.reg .r7 nofun, State.reg_link_r7]
  have hrun : t.run = s.run := by
    rw [serve_run hserve, if_neg hr, State.link_run]
  exact ⟨hlink, hregs, hout, hframe.pc, hframe.cond, fun a => congrArg (Memory.read · a) hframe.mem,
    ⟨hrun, hframe.fault⟩, hframe.inputClosed⟩

/-- The routines that only write to the console (R183, R184, R186). -/
theorem served_emit {r : Service} {s : State} {cs : List Word} (hserve : serve r s.link = .next (s.link.emit cs))
    (hr : r ≠ .halt) : Served [.r7] cs s (s.link.emit cs) :=
  served_of_serve hserve hr (.head _) (.inr (by simp [State.reg_link])) rfl

/-- The routines that read a code into R0 (R182, R185). -/
theorem served_read {r : Service} {s t : State} {out : List Word} (hserve : serve r s.link = .next t)
    (hr : r ≠ .halt) (hout : t.output = s.output ++ out) : Served [.r0, .r7] out s t :=
  served_of_serve hserve hr (by simp) (.inl (by simp)) hout

/-! ### GETC and IN, by what the input holds -/

/-- With a code supplied GETC delivers it (R182). -/
theorem serve_getc_of_code {s : State} {c : Word} {rest : List Word} (hinput : s.input = c :: rest) :
    serve .getc s = .next ({ s with input := rest }.setReg .r0 c) := by
  simp only [serve, serveGetc, State.consoleRead_of_code hinput]

/-- At the end of the input GETC delivers the sentinel (R182). -/
theorem serve_getc_of_eof {s : State} (hinput : s.input = []) (hclosed : s.inputClosed = true) :
    serve .getc s = .next (s.setReg .r0 0xFFFF) := by
  simp only [serve, serveGetc, State.consoleRead_of_eof hinput hclosed]
  rfl

/-- With nothing supplied GETC waits (R187). -/
theorem serve_getc_of_nothing {s : State} (hinput : s.input = []) (hopen : s.inputClosed = false) :
    serve .getc s = .fault .awaitingInput := by
  simp only [serve, serveGetc, State.consoleRead_of_nothing hinput hopen]

/-- With a code supplied IN prompts, echoes the code and delivers it (R185). -/
theorem serve_inp_of_code {s : State} {c : Word} {rest : List Word} (hinput : s.input = c :: rest) :
    serve .inp s = .next ((({ s.emit Config.inPrompt with input := rest }).emit [c]).setReg .r0 c) := by
  simp only [serve, serveIn, State.consoleRead_of_code (s := s.emit Config.inPrompt) hinput]

/-- At the end of the input IN prompts and delivers the sentinel (R185, decision D14). -/
theorem serve_inp_of_eof {s : State} (hinput : s.input = []) (hclosed : s.inputClosed = true) :
    serve .inp s = .next ((s.emit Config.inPrompt).setReg .r0 0xFFFF) := by
  simp only [serve, serveIn, State.consoleRead_of_eof (s := s.emit Config.inPrompt) hinput hclosed]
  rfl

/-- With nothing supplied IN waits, its prompt included (R187). -/
theorem serve_inp_of_nothing {s : State} (hinput : s.input = []) (hopen : s.inputClosed = false) :
    serve .inp s = .fault .awaitingInput := by
  simp only [serve, serveIn, State.consoleRead_of_nothing (s := s.emit Config.inPrompt) hinput hopen]

/-! ### The statements on GETC, OUT, IN and HALT -/

/-- Settles O39, by what the input holds. -/
theorem getcReadsOneCode : Obligations.GetcReadsOneCode := by
  intro s
  refine ⟨fun c rest hinput => ?_, fun hinput hclosed => ?_, fun hinput hopen => ?_⟩
  · have hserve := serve_getc_of_code (s := s.link) hinput
    exact ⟨_, (exec_trap_vector .getc s).trans hserve, State.reg_setReg_same .., rfl,
      served_read hserve nofun (by simp)⟩
  · have hserve := serve_getc_of_eof (s := s.link) hinput hclosed
    exact ⟨_, (exec_trap_vector .getc s).trans hserve, State.reg_setReg_same .., hinput,
      served_read hserve nofun (by simp)⟩
  · exact (exec_trap_vector .getc s).trans (serve_getc_of_nothing (s := s.link) hinput hopen)

/-- Settles O43, by what the input holds. -/
theorem inPromptsReadsAndEchoes : Obligations.InPromptsReadsAndEchoes := by
  intro s
  refine ⟨fun c rest hinput => ?_, fun hinput hclosed => ?_, fun hinput hopen => ?_⟩
  · have hserve := serve_inp_of_code (s := s.link) hinput
    exact ⟨_, (exec_trap_vector .inp s).trans hserve, State.reg_setReg_same .., rfl,
      served_read hserve nofun (by simp)⟩
  · have hserve := serve_inp_of_eof (s := s.link) hinput hclosed
    exact ⟨_, (exec_trap_vector .inp s).trans hserve, State.reg_setReg_same .., hinput,
      served_read hserve nofun (by simp)⟩
  · exact (exec_trap_vector .inp s).trans (serve_inp_of_nothing (s := s.link) hinput hopen)

/-- A GETC that waits has met an empty, open input. -/
theorem serve_getc_waits {s : State} (h : serve .getc s = .fault .awaitingInput) :
    s.input = [] ∧ s.inputClosed = false := by
  obtain ⟨c, rest, hinput, -⟩ | ⟨hinput, hclosed, -⟩ | ⟨hinput, hopen, -⟩ := s.consoleRead_cases
  · cases (serve_getc_of_code hinput).symm.trans h
  · cases (serve_getc_of_eof hinput hclosed).symm.trans h
  · exact ⟨hinput, hopen⟩

/-- Settles O40: the wait was for want of input, so the code supplied is the next one. -/
theorem suppliedCodeEndsTheWait : Obligations.SuppliedCodeEndsTheWait := by
  intro s c hwait
  obtain ⟨hinput, hopen⟩ : s.input = [] ∧ s.inputClosed = false :=
    serve_getc_waits (s := s.link) ((exec_trap_vector .getc s).symm.trans hwait)
  have hsupplied : (s.supplyCode c).input = [c] := by
    simp [State.supplyCode, hinput, hopen]
  exact ⟨_, (exec_trap_vector .getc _).trans (serve_getc_of_code (s := (s.supplyCode c).link) hsupplied),
    State.reg_setReg_same .., rfl⟩

/-- Settles O41: OUT writes R0, which the link has kept. -/
theorem outWritesR0 : Obligations.OutWritesR0 :=
  fun s => ⟨s.link.emit [s.reg .r0], exec_trap_vector .out s, rfl, served_emit (r := .out) rfl nofun⟩

/-- Settles O45: HALT writes its notice and then clears RUN alone. -/
theorem haltStopsCleanly : Obligations.HaltStopsCleanly := by
  intro s
  have hkept : RegsKept [.r7] s (s.link.emit Config.haltNotice).stop := fun q hq => by
    simp [State.reg_link, List.ne_of_not_mem_cons hq]
  exact ⟨_, exec_trap_vector .halt s, rfl, rfl, s.reg_link_r7, hkept, rfl, rfl, rfl, rfl, rfl, fun _ => rfl⟩

/-! ### PUTS and PUTSP -/

/-- The string of R0 is the words before the first zero word (R184). -/
theorem State.string_of_first_zero {s : State} {n : Nat} (hn : n < 65536)
    (hne : ∀ k, k < n → s.memRead (s.reg .r0 + BitVec.ofNat 16 k) ≠ 0)
    (hzero : s.memRead (s.reg .r0 + BitVec.ofNat 16 n) = 0) :
    s.string = some ((List.range n).map fun k => s.memRead (s.reg .r0 + BitVec.ofNat 16 k)) :=
  scanString_to_zero s.mem n 65536 (s.reg .r0) hn hne hzero

/-- PUTS writes the string (R184). -/
theorem serve_puts_of_string {s : State} {ws : List Word} (hstring : s.string = some ws) :
    serve .puts s = .next (s.emit ws) := by
  simp only [serve, servePuts, hstring]

/-- PUTSP writes the characters packed in the string (R186). -/
theorem serve_putsp_of_string {s : State} {ws : List Word} (hstring : s.string = some ws) :
    serve .putsp s = .next (s.emit (ws.flatMap unpack)) := by
  simp only [serve, servePutsp, hstring]

/-- The characters of a word by division and remainder (R186). -/
theorem unpack_eq (w : Word) :
    unpack w = if w.toNat / 256 = 0 then [BitVec.ofNat 16 (w.toNat % 256)]
      else [BitVec.ofNat 16 (w.toNat % 256), BitVec.ofNat 16 (w.toNat / 256)] := by
  have hlow : (w.extractLsb' 0 8).setWidth 16 = BitVec.ofNat 16 (w.toNat % 256) :=
    BitVec.eq_of_toNat_eq (by simp)
  have hhigh : (w.extractLsb' 8 8).setWidth 16 = BitVec.ofNat 16 (w.toNat / 256) :=
    BitVec.eq_of_toNat_eq (by simp [Nat.shiftRight_eq_div_pow]; omega)
  have hzero : BitVec.ofNat 16 (w.toNat / 256) = 0 ↔ w.toNat / 256 = 0 := by
    rw [← BitVec.toNat_inj, BitVec.toNat_ofNat, Nat.mod_eq_of_lt (by omega)]
    rfl
  simp only [unpack, hlow, hhigh, hzero]

/-- Settles O42: the link keeps R0 and memory, so the string is that of the state before. -/
theorem putsWritesTheString : Obligations.PutsWritesTheString := by
  intro s n hn hne hzero
  have hserve := serve_puts_of_string (s := s.link) (State.string_of_first_zero hn hne hzero)
  exact ⟨_, (exec_trap_vector .puts s).trans hserve, rfl, served_emit hserve nofun⟩

/-- Settles O44, as O42, with each word unpacked. -/
theorem putspUnpacksTheString : Obligations.PutspUnpacksTheString := by
  intro s n hn hne hzero
  have hserve := serve_putsp_of_string (s := s.link) (State.string_of_first_zero hn hne hzero)
  simp only [List.flatMap_map, unpack_eq] at hserve
  exact ⟨_, (exec_trap_vector .putsp s).trans hserve, rfl, served_emit hserve nofun⟩

/-! ### The fatal stops -/

/-- A fatal stop latches its cause and clears RUN, and changes nothing else (R212). -/
theorem State.fatallyStopped_raise (s : State) (c : Cause) : FatallyStopped c [] s (s.raise c) :=
  ⟨rfl, rfl, fun q _ => s.reg_raise q c, rfl, rfl, fun a => s.memRead_raise a c, rfl, rfl, rfl⟩

/-- A fatal stop after the link changes R7 besides (R189). -/
theorem State.fatallyStopped_raise_link (s : State) (c : Cause) : FatallyStopped c [.r7] s (s.link.raise c) := by
  have hkept : RegsKept [.r7] s (s.link.raise c) := fun q hq => by
    simp [State.reg_link, List.ne_of_not_mem_cons hq]
  exact ⟨rfl, rfl, hkept, rfl, rfl, fun _ => rfl, rfl, rfl, rfl⟩

/-- A meaning that runs on the incremented pc finds its own address (R213). -/
theorem State.instrAddr_of_pc {s : State} {a : Word} (hpc : s.pc = a + 1) : s.instrAddr = a := by
  simp [State.instrAddr, hpc]

/-- Settles O46: no routine has such a vector, so the link is followed by the fatal stop. -/
theorem undefinedVectorStopsTheMachine : Obligations.UndefinedVectorStopsTheMachine := by
  intro v a s hv hpc
  have hexec := exec_trap_of_undefined hv s
  rw [State.instrAddr_of_pc hpc] at hexec
  exact ⟨_, hexec, s.reg_link_r7.trans hpc, s.fatallyStopped_raise_link _⟩

/-- Settles O47: RTI is the fatal stop with its own address and opcode. -/
theorem rtiStopsTheMachine : Obligations.RtiStopsTheMachine := by
  intro a s hpc
  refine ⟨s.raise (.illegalOpcode s.instrAddr 8), rfl, ?_⟩
  rw [State.instrAddr_of_pc hpc]
  exact s.fatallyStopped_raise _

/-- Settles O48: RES is the fatal stop with its own address and opcode. -/
theorem resStopsTheMachine : Obligations.ResStopsTheMachine := by
  intro a s hpc
  refine ⟨s.raise (.illegalOpcode s.instrAddr 13), rfl, ?_⟩
  rw [State.instrAddr_of_pc hpc]
  exact s.fatallyStopped_raise _

end Sys2Proof.Machine
end

section
/-! PROOFS. The statements on JSRR and on the return from a call (spec/42_control.md). -/

namespace Sys2Proof.Machine

/-- Settles O28: the link writes R7, which is not the base register. -/
theorem jsrrLinksAndJumpsToTheRegister : Obligations.JsrrLinksAndJumpsToTheRegister := by
  intro baseR s hbase
  have htarget : s.link.reg baseR = s.reg baseR := by rw [State.reg_link, if_neg hbase]
  exact ⟨s.link.setPc (s.link.reg baseR), rfl, s.reg_r7_setPc_link _, htarget ▸ s.jumped_setPc_link _⟩

/-- Settles O29: the link writes R7 before it is read (decision D16). -/
theorem jsrrThroughR7FallsThrough : Obligations.JsrrThroughR7FallsThrough := by
  intro s
  have htarget : s.link.reg .r7 = s.pc := s.reg_link_r7
  exact ⟨s.link.setPc (s.link.reg .r7), rfl, s.reg_r7_setPc_link _, htarget ▸ s.jumped_setPc_link _⟩

/-- A running machine's step, by the instruction it fetches. -/
theorem step_of_fetch {s : State} {i : Instr} (hi : decode s.fetch = i) (hrun : s.run = true) :
    step s = exec i s.advance := by
  rw [step_of_run hrun, hi]

/-- Settles O30: the JSR leaves in R7 the address after its own and the machine running, and JMP R7 goes there. -/
theorem returnComesBackAfterTheCall : Obligations.ReturnComesBackAfterTheCall := by
  intro s t off hjsr hstep hret
  obtain ⟨hrun, hexec⟩ := step_next hstep
  rw [hjsr] at hexec
  cases hexec
  exact ⟨_, step_of_fetch hret hrun, s.advance.reg_link_r7⟩

end Sys2Proof.Machine
end

section
/-! PROOFS. The statements on every instruction at once, from the inversion of `exec`: pc, RUN and FAULT, the console;
then when a step completes, and the runs built from it (spec/10_state.md, spec/40_cycle.md, spec/60_exceptions.md). -/

namespace Sys2Proof.Machine

/-! ### Reset and the stopped machine -/

/-- Settles O2, field by field. -/
theorem resetFlagRunAndConsole : Obligations.ResetFlagRunAndConsole :=
  ⟨rfl, fun p => ⟨State.resetAt_cond p, rfl, State.resetAt_fault p, State.resetAt_input p,
    State.resetAt_inputClosed p, State.resetAt_output p⟩⟩

/-- Settles O4: a run of one or more steps begins with the step there is not. -/
theorem stoppedMachineTakesNoStep : Obligations.StoppedMachineTakesNoStep :=
  fun _ hrun => ⟨step_of_not_run hrun, fun _ => runFor_succ_of_fault (step_of_not_run hrun)⟩

/-! ### The program counter -/

/-- Settles O52: only the effects of the four transfers move pc. -/
theorem onlyControlTransfersMoveThePc : Obligations.OnlyControlTransfersMoveThePc := by
  intro i s t h hbr hjmp hjsr hjsrr
  cases exec_effect h with
  | jump _ hi => exact absurd hi (by simp [hbr, hjmp])
  | call _ hi => exact absurd hi (by simp [hjsr, hjsrr])
  | result | store | illegal | undefinedVector => rfl
  | service _ _ hserve => exact (serve_frame hserve).pc

/-! ### RUN and FAULT -/

/-- TRAP is fatal when its vector selects no routine (R210). -/
theorem fatal_trap_iff (v : BitVec 8) : (Instr.trap v).fatal = true ↔ Service.ofVector v = none := by
  simp [Instr.fatal, Service.ofVector_eq_none_iff]

/-- A fatal instruction raises a cause with its own address, TRAP after the link (R212, R213). -/
theorem exec_of_fatal {i : Instr} (hfatal : i.fatal = true) (s : State) :
    ∃ c u, exec i s = .next (State.raise u c) ∧
      ((∃ op, c = .illegalOpcode s.instrAddr op) ∨ ∃ v, c = .illegalTrapVector s.instrAddr v) := by
  cases i with
  | rti | res => exact ⟨_, s, rfl, .inl ⟨_, rfl⟩⟩
  | trap v =>
    have hv := (Service.ofVector_eq_none_iff v).mp ((fatal_trap_iff v).mp hfatal)
    exact ⟨_, s.link, exec_trap_of_undefined hv s, .inr ⟨v, rfl⟩⟩
  | br | addReg | addImm | ld | st | jsrr | jsr | andReg | andImm | ldr | str | not | ldi | sti | jmp | lea =>
    cases hfatal

/-- Any other instruction keeps FAULT, and RUN too unless it is HALT (R188, R31). -/
theorem exec_status_of_not_fatal {i : Instr} {s t : State} (hfatal : i.fatal = false) (h : exec i s = .next t) :
    t.fault = s.fault ∧ t.run = if i = .trap 0x25 then false else s.run := by
  cases exec_effect h with
  | result _ hi | store hi => exact ⟨rfl, (if_neg (by rintro rfl; cases hi)).symm⟩
  | jump _ hi | call _ hi => exact ⟨rfl, (if_neg (by rintro rfl; obtain hi | hi := hi <;> cases hi)).symm⟩
  | illegal _ hi => obtain rfl | rfl := hi <;> cases hfatal
  | undefinedVector hi hv =>
    subst hi
    cases ((fatal_trap_iff _).mpr hv).symm.trans hfatal
  | @service v r _ hi hv hserve =>
    obtain rfl := (Service.ofVector_eq_some_iff v r).mp hv
    have hhalt : i = .trap 0x25 ↔ r = .halt := by
      subst hi
      cases r <;> decide
    rw [serve_run hserve]
    simp only [hhalt]
    exact ⟨(serve_frame hserve).fault, rfl⟩

/-- Settles O53: a fatal instruction raises, HALT clears RUN alone, and every other instruction keeps both. -/
theorem runAndFaultWriters : Obligations.RunAndFaultWriters := by
  intro s t hstep
  obtain ⟨hrun, hexec⟩ := step_next hstep
  cases hfatal : (decode s.fetch).fatal with
  | true =>
    obtain ⟨c, u, hraise, hcause⟩ := exec_of_fatal hfatal s.advance
    obtain rfl : u.raise c = t := by simpa [hexec] using hraise.symm
    rw [State.instrAddr_advance] at hcause
    simpa using hcause
  | false =>
    obtain ⟨hfault, ht⟩ := exec_status_of_not_fatal hfatal hexec
    rw [State.advance_run, hrun] at ht
    simp [ht, hfault]

/-! ### The console -/

/-- What an instruction can do to the console (R35, R181): the output grows, at most one code is consumed, and the
input stays open or closed. -/
def ConsoleAdvanced (s t : State) : Prop :=
  (∃ out, t.output = s.output ++ out) ∧ (∃ taken, s.input = taken ++ t.input ∧ taken.length ≤ 1) ∧
    t.inputClosed = s.inputClosed

theorem ConsoleKept.advanced {s t : State} (hkept : ConsoleKept s t) : ConsoleAdvanced s t := by
  obtain ⟨hinput, hclosed, houtput⟩ := hkept
  exact ⟨⟨[], by simp [houtput]⟩, ⟨[], by simp [hinput]⟩, hclosed⟩

/-- Only a routine of TRAP does anything to the console (R35). -/
theorem exec_console {i : Instr} {s t : State} (h : exec i s = .next t) :
    ConsoleAdvanced s t ∧ (i.form ≠ .trap → ConsoleKept s t) := by
  cases exec_effect h with
  | result | store | jump | call | illegal | undefinedVector =>
    exact ⟨ConsoleKept.advanced ⟨rfl, rfl, rfl⟩, fun _ => ⟨rfl, rfl, rfl⟩⟩
  | service hi _ hserve =>
    have hframe := serve_frame hserve
    exact ⟨⟨hframe.output, hframe.input, hframe.inputClosed⟩, fun htrap => absurd (congrArg Instr.form hi) htrap⟩

/-- Settles O54: a step's console is that of its instruction. -/
theorem consoleIsAHistory : Obligations.ConsoleIsAHistory := by
  intro s t hstep
  obtain ⟨-, hexec⟩ := step_next hstep
  obtain ⟨⟨houtput, hinput, -⟩, hkept⟩ := exec_console hexec
  exact ⟨houtput, hinput, hkept⟩

/-! ### Runs -/

/-- What every step keeps, a run keeps. -/
theorem runFor_keeps {P : State → Prop} (hstep : ∀ s t, P s → step s = .next t → P t) {k : Nat} {s t : State}
    (hs : P s) (hrun : runFor k s = .next t) : P t := by
  induction k generalizing s with
  | zero => cases hrun; exact hs
  | succ k ih =>
    cases h : step s with
    | next u => exact ih (hstep s u hs h) ((runFor_succ_of_next h).symm.trans hrun)
    | fault r => cases (runFor_succ_of_fault h).symm.trans hrun
    | refused r => cases (runFor_succ_of_refused h).symm.trans hrun

/-- Settles O55: a step takes its code from an empty input and keeps it closed. -/
theorem endOfInputIsSticky : Obligations.EndOfInputIsSticky := by
  intro s t k hinput hclosed hrun
  refine runFor_keeps (P := fun u => u.input = [] ∧ u.inputClosed = true) ?_ ⟨hinput, hclosed⟩ hrun
  rintro s t ⟨hinput, hclosed⟩ hstep
  obtain ⟨⟨-, ⟨taken, htaken, -⟩, hkept⟩, -⟩ := exec_console (step_next hstep).2
  have hempty : taken ++ t.input = [] := htaken.symm.trans hinput
  exact ⟨(List.append_eq_nil_iff.mp hempty).2, hkept.trans hclosed⟩

/-- The zero word is a BR that is never taken, so the step is the increment (R104). -/
theorem step_of_zero_fetch {s : State} (hrun : s.run = true) (hzero : s.fetch = 0) : step s = .next s.advance := by
  have hbr : decode s.fetch = .br false false false 0 := by rw [hzero]; decide
  rw [step_of_fetch hbr hrun, exec_br]
  cases s.advance.cond <;> rfl

/-- Settles O56, by induction on the number of steps. -/
theorem zeroMemoryIsASlide : Obligations.ZeroMemoryIsASlide := by
  intro s k hrun hzero
  induction k generalizing s with
  | zero => simp [runFor, Nat.mod_eq_of_lt s.pc.isLt]
  | succ k ih =>
    rw [runFor_succ_of_next (step_of_zero_fetch hrun (hzero s.pc)), ih s.advance hrun hzero, s.advance_pc_toNat,
      Nat.mod_add_mod, Nat.add_right_comm, Nat.add_assoc]
    rfl

/-! ### When a step completes -/

/-- TRAP's form is TRAP's alone. -/
theorem eq_trap_of_form {i : Instr} (htrap : i.form = .trap) : ∃ v, i = .trap v := by
  cases i <;> cases htrap
  exact ⟨_, rfl⟩

/-- No instruction but TRAP can wait. -/
theorem exec_completes_of_not_trap {i : Instr} (htrap : i.form ≠ .trap) (s : State) : ∃ t, exec i s = .next t := by
  cases i with
  | trap => exact absurd rfl htrap
  | br | addReg | addImm | ld | st | jsrr | jsr | andReg | andImm | ldr | str | rti | not | ldi | sti | jmp | res
  | lea => exact ⟨_, rfl⟩

/-- GETC and IN wait for the console where nothing has been supplied (R187 (1)). -/
theorem exec_of_waits {i : Instr} {s : State} (hwaits : i.waits s) : exec i s = .fault .awaitingInput := by
  obtain ⟨rfl | rfl, hinput, hopen⟩ := hwaits
  · exact (exec_trap_vector .getc s).trans (serve_getc_of_nothing (s := s.link) hinput hopen)
  · exact (exec_trap_vector .inp s).trans (serve_inp_of_nothing (s := s.link) hinput hopen)

/-- PUTS and PUTSP never end where no cell is zero (R187 (2)). -/
theorem exec_of_scansForever {i : Instr} {s : State} (hscans : i.scansForever s) :
    exec i s = .fault .unterminatedString := by
  obtain ⟨hi, hnonzero⟩ := hscans
  have hstring : s.link.string = none := s.link.string_eq_none_iff.mpr hnonzero
  obtain rfl | rfl := hi
  · exact (exec_trap_vector .puts s).trans (by simp only [serve, servePuts, hstring])
  · exact (exec_trap_vector .putsp s).trans (by simp only [serve, servePutsp, hstring])

/-- The input of a console read that need not wait. -/
theorem State.input_of_supplied {s : State} (hsupplied : ¬(s.input = [] ∧ s.inputClosed = false)) :
    (∃ c rest, s.input = c :: rest) ∨ (s.input = [] ∧ s.inputClosed = true) := by
  obtain ⟨c, rest, hinput, -⟩ | ⟨hinput, hclosed, -⟩ | ⟨hinput, hopen, -⟩ := s.consoleRead_cases
  · exact .inl ⟨c, rest, hinput⟩
  · exact .inr ⟨hinput, hclosed⟩
  · exact absurd ⟨hinput, hopen⟩ hsupplied

/-- A scan ends where some cell is zero. -/
theorem State.exists_string {s : State} (hzero : ¬∀ a, s.memRead a ≠ 0) : ∃ ws, s.string = some ws :=
  Option.ne_none_iff_exists'.mp (mt s.string_eq_none_iff.mp hzero)

/-- A routine goes on, but GETC and IN with nothing supplied, and PUTS and PUTSP with no zero word (R187). -/
theorem serve_completes (r : Service) (s : State)
    (hreads : r = .getc ∨ r = .inp → ¬(s.input = [] ∧ s.inputClosed = false))
    (hscans : r = .puts ∨ r = .putsp → ¬∀ a, s.memRead a ≠ 0) : ∃ t, serve r s = .next t := by
  cases r with
  | out | halt => exact ⟨_, rfl⟩
  | getc =>
    obtain ⟨c, rest, hinput⟩ | ⟨hinput, hclosed⟩ := State.input_of_supplied (hreads (.inl rfl))
    · exact ⟨_, serve_getc_of_code hinput⟩
    · exact ⟨_, serve_getc_of_eof hinput hclosed⟩
  | inp =>
    obtain ⟨c, rest, hinput⟩ | ⟨hinput, hclosed⟩ := State.input_of_supplied (hreads (.inr rfl))
    · exact ⟨_, serve_inp_of_code hinput⟩
    · exact ⟨_, serve_inp_of_eof hinput hclosed⟩
  | puts =>
    obtain ⟨ws, hstring⟩ := State.exists_string (hscans (.inl rfl))
    exact ⟨_, serve_puts_of_string hstring⟩
  | putsp =>
    obtain ⟨ws, hstring⟩ := State.exists_string (hscans (.inr rfl))
    exact ⟨_, serve_putsp_of_string hstring⟩

/-- Every instruction that neither waits nor scans for ever answers a next state. -/
theorem exec_completes {i : Instr} {s : State} (hwaits : ¬i.waits s) (hscans : ¬i.scansForever s) :
    ∃ t, exec i s = .next t := by
  by_cases htrap : i.form = .trap
  · obtain ⟨v, rfl⟩ := eq_trap_of_form htrap
    obtain ⟨-, hexec⟩ | ⟨r, hv, hexec⟩ := execTrap_cases v s
    · exact ⟨_, hexec⟩
    · obtain rfl := (Service.ofVector_eq_some_iff v r).mp hv
      obtain ⟨t, ht⟩ := serve_completes r s.link
        (fun hr hnothing => hwaits ⟨hr.imp (by rintro rfl; rfl) (by rintro rfl; rfl), hnothing⟩)
        (fun hr hnonzero => hscans ⟨hr.imp (by rintro rfl; rfl) (by rintro rfl; rfl), hnonzero⟩)
      exact ⟨t, hexec.trans ht⟩
  · exact exec_completes_of_not_trap htrap s

/-- Settles O5: with RUN = 1 a step is `exec` on the advanced state. -/
theorem stepCompletesUnlessItWaits : Obligations.StepCompletesUnlessItWaits := by
  intro s hrun
  rw [step_of_run hrun]
  exact ⟨exec_of_waits, exec_of_scansForever, exec_completes⟩

/-! ### A store over the next instruction -/

/-- Settles O38: the store leaves the machine running and its word in the cell it addresses, where pc points. -/
theorem storeIsSeenByTheNextFetch : Obligations.StoreIsSeenByTheNextFetch := by
  intro s t ea sr hstep hea hsr hpc
  obtain ⟨hrun, hexec⟩ := step_next hstep
  obtain ⟨sr', hsr', hstore⟩ := exec_of_storeAddr hea
  obtain rfl : sr = sr' := Option.some.inj (hsr.symm.trans hsr')
  obtain rfl : t = s.advance.memWrite ea (s.reg sr) := by simpa [hexec] using hstore
  have hfetch : (s.advance.memWrite ea (s.reg sr)).fetch = s.reg sr := by
    rw [State.fetch, hpc, State.memRead_memWrite_same]
  exact step_of_fetch (congrArg decode hfetch) hrun

end Sys2Proof.Machine
end

section
/-! PROOFS. The statement on the registers an instruction reads and writes (spec/10_state.md R22): the same meaning run
with another value in one register. -/

namespace Sys2Proof.Machine

/-! ### Another value in a register -/

/-- A write passes an earlier one to another register and stands over one to its own. -/
theorem State.setReg_setReg (s : State) (r q : Reg) (v u : Word) :
    (s.setReg r v).setReg q u = if r = q then s.setReg q u else (s.setReg q u).setReg r v := by
  by_cases hrq : r = q
  · subst hrq
    simp [State.setReg]
  · simp [State.setReg, hrq, RegFile.write_write_comm _ _ _ hrq]

/-- A result passes an earlier write to another register and stands over one to its own. -/
theorem State.writeResult_setReg (s : State) (r dr : Reg) (v u : Word) :
    (s.setReg r v).writeResult dr u = if r = dr then s.writeResult dr u else (s.writeResult dr u).setReg r v := by
  rw [State.writeResult, State.setReg_setReg]
  split <;> rfl

/-- The link passes an earlier write to another register and stands over one to R7. -/
theorem State.link_setReg (s : State) (r : Reg) (v : Word) :
    (s.setReg r v).link = if r = .r7 then s.link else s.link.setReg r v :=
  s.setReg_setReg r .r7 v s.pc

/-- A console read neither reads nor writes a register. -/
theorem State.consoleRead_setReg (s : State) (r : Reg) (v : Word) :
    (s.setReg r v).consoleRead = s.consoleRead.map fun x => (x.1, x.2.setReg r v) := by
  obtain ⟨_, _, hinput, -⟩ | ⟨hinput, hclosed, -⟩ | ⟨hinput, hopen, -⟩ := s.consoleRead_cases
  · rw [consoleRead_of_code hinput, consoleRead_of_code (s := s.setReg r v) hinput]
    rfl
  · rw [consoleRead_of_eof hinput hclosed, consoleRead_of_eof (s := s.setReg r v) hinput hclosed]
    rfl
  · rw [consoleRead_of_nothing hinput hopen, consoleRead_of_nothing (s := s.setReg r v) hinput hopen]
    rfl

/-- A string rests on R0 alone of the registers (R184). -/
theorem State.string_setReg (s : State) {r : Reg} (hr : r ≠ .r0) (v : Word) : (s.setReg r v).string = s.string := by
  rw [State.string, State.reg_setReg_ne s v hr.symm]
  rfl

/-! ### The routines -/

/-- The registers a routine reads (R22). -/
def Service.regsRead : Service → List Reg
  | .out | .puts | .putsp => [.r0]
  | .getc | .inp | .halt => []

/-- The registers a routine writes, the link apart (R22). -/
def Service.regsWritten : Service → List Reg
  | .getc | .inp => [.r0]
  | .out | .puts | .putsp | .halt => []

/-- The rows of R22's table for TRAP, by its routine. -/
theorem Service.regsRead_trap (r : Service) : (Instr.trap r.vector).regsRead = r.regsRead := by
  cases r <;> rfl

theorem Service.regsWritten_trap (r : Service) : (Instr.trap r.vector).regsWritten = r.regsWritten ++ [.r7] := by
  cases r <;> rfl

/-- A routine keeps every register it is not listed to write. -/
theorem serve_reg_kept {r : Service} {s t : State} (h : serve r s = .next t) {q : Reg} (hq : q ∉ r.regsWritten) :
    t.reg q = s.reg q := by
  by_cases hq0 : q = .r0
  · subst hq0
    cases r with
    | getc | inp => exact absurd (List.mem_singleton_self _) hq
    | out | halt => cases h; rfl
    | puts | putsp =>
      simp only [serve, servePuts, servePutsp] at h
      split at h <;> cases h
      rfl
  · exact (serve_frame h).reg q hq0

/-- With another value in a register a routine does not read, it does the same, keeping that value unless it writes
the register. -/
theorem serve_setReg {r : Service} {s t : State} (h : serve r s = .next t) {q : Reg} (hq : q ∉ r.regsRead) (v : Word) :
    serve r (s.setReg q v) = .next (if q ∈ r.regsWritten then t else t.setReg q v) := by
  cases r with
  | halt => cases h; rfl
  | out =>
    have hq0 : q ≠ .r0 := fun h => hq (by simp [Service.regsRead, h])
    cases h
    simp only [serve, serveOut, State.reg_setReg_ne s v hq0.symm]
    rfl
  | puts | putsp =>
    have hq0 : q ≠ .r0 := fun h => hq (by simp [Service.regsRead, h])
    simp only [serve, servePuts, servePutsp, State.string_setReg s hq0] at h ⊢
    split at h <;> cases h
    rfl
  | getc =>
    simp only [serve, serveGetc, State.consoleRead_setReg, Service.regsWritten, List.mem_singleton] at h ⊢
    generalize s.consoleRead = read at h ⊢
    rcases read with _ | ⟨_ | _, u⟩ <;> cases h
    · exact congrArg _ (u.setReg_setReg ..)
    · exact congrArg _ (u.setReg_setReg ..)
  | inp =>
    have hprompt : (s.setReg q v).emit Config.inPrompt = (s.emit Config.inPrompt).setReg q v := rfl
    simp only [serve, serveIn, hprompt, State.consoleRead_setReg, Service.regsWritten, List.mem_singleton] at h ⊢
    generalize (s.emit Config.inPrompt).consoleRead = read at h ⊢
    rcases read with _ | ⟨_ | c, u⟩ <;> cases h
    · exact congrArg _ ((u.emit _).setReg_setReg ..)
    · exact congrArg _ (u.setReg_setReg ..)

/-! ### TRAP -/

/-- R7 is written, and by GETC and IN R0 besides (R22). -/
theorem regsWritten_trap (v : BitVec 8) :
    (Instr.trap v).regsWritten = if v = 0x20 ∨ v = 0x23 then [.r0, .r7] else [.r7] := rfl

/-- Every TRAP links (R180). -/
theorem r7_mem_regsWritten_trap (v : BitVec 8) : .r7 ∈ (Instr.trap v).regsWritten := by
  rw [regsWritten_trap]
  split <;> simp

/-- An undefined vector writes R7 alone (R189). -/
theorem regsWritten_trap_of_undefined {v : BitVec 8} (hv : Service.ofVector v = none) :
    (Instr.trap v).regsWritten = [.r7] := by
  rw [regsWritten_trap, if_neg]
  rintro (rfl | rfl) <;> cases hv

/-- TRAP with another value in a register its routine does not read. -/
theorem execTrap_setReg {v : BitVec 8} {s t : State} (h : exec (.trap v) s = .next t) {q : Reg}
    (hq : q ∉ (Instr.trap v).regsRead) (x : Word) :
    exec (.trap v) (s.setReg q x) = .next (if q ∈ (Instr.trap v).regsWritten then t else t.setReg q x) := by
  cases hv : Service.ofVector v with
  | none =>
    have hundefined := (Service.ofVector_eq_none_iff v).mp hv
    rw [exec_trap_of_undefined hundefined] at h ⊢
    cases h
    rw [regsWritten_trap_of_undefined hv, State.link_setReg]
    simp only [List.mem_singleton]
    split <;> rfl
  | some r =>
    obtain rfl := (Service.ofVector_eq_some_iff v r).mp hv
    rw [exec_trap_vector] at h ⊢
    rw [Service.regsRead_trap] at hq
    rw [Service.regsWritten_trap, State.link_setReg]
    by_cases hq7 : q = .r7
    · simp [hq7, h]
    · simp [hq7, serve_setReg h hq]

/-! ### The table -/

/-- A flag-updating instruction writes its result register alone (R22). -/
theorem regsWritten_of_resultReg {i : Instr} {dr : Reg} (hi : i.resultReg = some dr) : i.regsWritten = [dr] := by
  cases i with
  | addReg | addImm | andReg | andImm | not | ld | ldi | ldr | lea => cases hi; rfl
  | br | jmp | jsr | jsrr | st | sti | str | trap | rti | res => cases hi

/-- The two calls link (R22). -/
theorem r7_mem_regsWritten_of_call {i : Instr} (hi : i.form = .jsr ∨ i.form = .jsrr) : .r7 ∈ i.regsWritten := by
  cases i with
  | jsr | jsrr => exact List.mem_singleton_self _
  | br | addReg | addImm | ld | st | andReg | andImm | ldr | str | rti | not | ldi | sti | jmp | res | lea | trap =>
    obtain hi | hi := hi <;> cases hi

/-- Every register outside an instruction's row of written ones is kept (R22). -/
theorem exec_reg_kept {i : Instr} {s t : State} (h : exec i s = .next t) {q : Reg} (hq : q ∉ i.regsWritten) :
    t.reg q = s.reg q := by
  cases exec_effect h with
  | result _ hi =>
    rw [regsWritten_of_resultReg hi, List.mem_singleton] at hq
    rw [State.reg_writeResult, if_neg hq]
  | store | jump | illegal => rfl
  | call target hi =>
    have hq7 : q ≠ .r7 := fun h => hq (h ▸ r7_mem_regsWritten_of_call hi)
    rw [State.reg_setPc, State.reg_link, if_neg hq7]
  | undefinedVector hi =>
    subst hi
    have hq7 : q ≠ .r7 := fun h => hq (h ▸ r7_mem_regsWritten_trap _)
    rw [State.reg_raise, State.reg_link, if_neg hq7]
  | @service v r _ hi hv hserve =>
    obtain rfl := (Service.ofVector_eq_some_iff v r).mp hv
    subst hi
    rw [Service.regsWritten_trap, List.mem_append, List.mem_singleton, not_or] at hq
    rw [serve_reg_kept hserve hq.1, State.reg_link, if_neg hq.2]

/-- The value a flag-updating instruction writes rests on no register outside its row of read ones (R22). -/
theorem exec_setReg_of_resultReg {i : Instr} {dr : Reg} (hi : i.resultReg = some dr) (s : State) {q : Reg}
    (hq : q ∉ i.regsRead) (x : Word) :
    ∃ u, exec i s = .next (s.writeResult dr u) ∧ exec i (s.setReg q x) = .next ((s.setReg q x).writeResult dr u) := by
  cases i with
  | addReg _ sr1 sr2 | andReg _ sr1 sr2 =>
    cases hi
    obtain ⟨h1, h2⟩ : sr1 ≠ q ∧ sr2 ≠ q := by simpa [Instr.regsRead, eq_comm] using hq
    exact ⟨_, rfl, by simp only [exec, execAddReg, execAndReg, s.reg_setReg_ne x h1, s.reg_setReg_ne x h2]⟩
  | addImm _ sr1 | andImm _ sr1 | not _ sr1 =>
    cases hi
    have h1 : sr1 ≠ q := fun h => hq (by simp [Instr.regsRead, h])
    exact ⟨_, rfl, by simp only [exec, execAddImm, execAndImm, execNot, s.reg_setReg_ne x h1]⟩
  | ldr _ baseR off =>
    cases hi
    have hbase : baseR ≠ q := fun h => hq (by simp [Instr.regsRead, h])
    exact ⟨_, rfl, by simp only [exec, execLdr, State.baseOff_congr (s.reg_setReg_ne x hbase), State.memRead_setReg]⟩
  | ld | ldi | lea => cases hi; exact ⟨_, rfl, rfl⟩
  | br | jmp | jsr | jsrr | st | sti | str | trap | rti | res => cases hi

/-- Every other instruction but TRAP, with another value in a register it does not read (R22). -/
theorem exec_setReg_of_no_result {i : Instr} {s t : State} (hi : i.resultReg = none) (htrap : i.form ≠ .trap)
    (h : exec i s = .next t) {q : Reg} (hq : q ∉ i.regsRead) (x : Word) :
    exec i (s.setReg q x) = .next (if q ∈ i.regsWritten then t else t.setReg q x) := by
  cases i with
  | addReg | addImm | andReg | andImm | not | ld | ldi | ldr | lea => cases hi
  | trap => exact absurd rfl htrap
  | rti | res => cases h; rfl
  | br =>
    rw [exec_br] at h ⊢
    cases h
    rfl
  | jmp baseR =>
    cases h
    have hbase : baseR ≠ q := fun h => hq (by simp [Instr.regsRead, h])
    simp only [exec, execJmp, s.reg_setReg_ne x hbase]
    rfl
  | jsr off =>
    cases h
    simp only [exec, execJsr, State.link_setReg, Instr.regsWritten, List.mem_singleton]
    split <;> rfl
  | jsrr baseR =>
    cases h
    have hbase : baseR ≠ q := fun h => hq (by simp [Instr.regsRead, h])
    simp only [exec, execJsrr, State.link_setReg, Instr.regsWritten, List.mem_singleton]
    split
    · rfl
    · rw [s.link.reg_setReg_ne x hbase]
      rfl
  | st sr off | sti sr off =>
    cases h
    have hsr : sr ≠ q := fun h => hq (by simp [Instr.regsRead, h])
    simp only [exec, execSt, execSti, s.reg_setReg_ne x hsr]
    rfl
  | str sr baseR off =>
    cases h
    obtain ⟨hsr, hbase⟩ : sr ≠ q ∧ baseR ≠ q := by simpa [Instr.regsRead, eq_comm] using hq
    simp only [exec, execStr, s.reg_setReg_ne x hsr, State.baseOff_congr (s.reg_setReg_ne x hbase)]
    rfl

/-- Settles O50: a written register is the one of the effect, and each operand is read before anything is written. -/
theorem registersReadAndWrittenAsListed : Obligations.RegistersReadAndWrittenAsListed := by
  intro i s t h
  refine ⟨fun q hq => exec_reg_kept h hq, fun q x hq => ?_⟩
  cases hi : i.resultReg with
  | some dr =>
    obtain ⟨u, hs, hother⟩ := exec_setReg_of_resultReg hi s hq x
    obtain rfl : t = s.writeResult dr u := by simpa [h] using hs
    rw [hother, State.writeResult_setReg, regsWritten_of_resultReg hi]
    simp only [List.mem_singleton]
  | none =>
    by_cases htrap : i.form = .trap
    · obtain ⟨v, rfl⟩ := eq_trap_of_form htrap
      exact execTrap_setReg h hq x
    · exact exec_setReg_of_no_result hi htrap h hq x

end Sys2Proof.Machine
end
